-- ==== Sys2Proof/Word.lean ====
section
/-! DEFINITION. Words and named codes: the fixed-width words the block's registers hold, the interval durations, and
the closed enumerations of the state machine, the message type and the status (10_state.md R20, R27, R28;
30_encoding.md R67; 93_implementation_defined.md I11 asks for closed enumerations, without the reserved codes). -/

namespace Sys2Proof

/-- An 8-bit field of the payload (R66). -/
abbrev Byte := BitVec 8

/-- `Bits_24`: the result word `RES_VALUE` and the stored `LAST_CODE` (R20). -/
abbrev Code := BitVec 24

/-- `Bits_32`: the payload word `P`, with `P[k] = b(k)` (R11). -/
abbrev Payload := BitVec 32

/-- A duration in microseconds, or a dimensionless ratio: an exact rational (R10, decision D2). -/
abbrev Micros := Rat

/-- One element of the interval buffer as the collector can deliver it. The contract admits only non-negative
rationals (R41); the other values are here so that a DECODE of them can be refused (R44, R212 item 2). -/
inductive Interval where
  /-- A finite duration in microseconds. -/
  | us (q : Micros)
  /-- A floating-point NaN. -/
  | nan
  /-- A floating-point infinity of either sign. -/
  | inf (negative : Bool)
  deriving DecidableEq, Repr

/-- `MTYPE` (R27). The code `11` is reserved and never written, so it has no constructor. -/
inductive MType where
  | invalid
  | newMsg
  | repeatMsg
  deriving DecidableEq, Repr, Inhabited

/-- `FSM` (R28). The code `111` is reserved and unreachable, so it has no constructor. -/
inductive Fsm where
  | idle
  | locate
  | classify
  | validate
  | convert
  | check
  | commit
  deriving DecidableEq, Repr

/-- `RES_STATUS` (R67). The codes 9 to 15 are reserved and never produced, so they have no constructor. -/
inductive Status where
  | none
  | okNew
  | okRepeat
  | noLeadingBurst
  | unclassifiable
  | structShort
  | malformed
  | redundancyMismatch
  | repeatWithoutPrior
  deriving DecidableEq, Repr

/-- The answer of a structural validator (R120, R121): `Pass`, or `Fail` with the status it decides. -/
inductive Verdict where
  | pass
  | fail (e : Status)
  deriving DecidableEq, Repr

end Sys2Proof
end

