-- ==== Sys2Proof/Config.lean ====
section
/-! DEFINITION. What is fixed for the block and never changes while it runs: the reference constants of 00_scope.md R8
in ONE record, as R8 asks, and the free values for what the spec calls unspecified. -/

namespace Sys2Proof

/-- The parameters of R8, in the table's order. `TOL` and `EXT` are registers (R21, R22); only their defaults are
here. `MAX_LEN` is OPEN, at least `minMaxLen`: it is a field of State that no step changes, so that a statement about
every state is about every capacity; `maxLenAtReset` is the capacity of the block in `State.reset` (assumption 2). -/
structure Params where
  tBurst : Micros
  tPauseNew : Micros
  tPauseRep : Micros
  tShort : Micros
  nNew : Nat
  nRep : Nat
  firstBitOfs : Nat
  nBits : Nat
  idxTermNew : Nat
  idxTermRep : Nat
  tolDefault : Micros
  extDefault : Bool
  minMaxLen : Nat
  maxLenAtReset : Nat

/-- The record of R8, at the values the table gives for this hardware. -/
def Config.params : Params where
  tBurst := 9000
  tPauseNew := 4500
  tPauseRep := 2250
  tShort := 1125 / 2
  nNew := 67
  nRep := 3
  firstBitOfs := 2
  nBits := 32
  idxTermNew := 66
  idxTermRep := 2
  tolDefault := 5 / 16
  extDefault := false
  minMaxLen := 67
  maxLenAtReset := 65536

/-- The nominal second element of a 1-bit's pair in the frames the ENCODER writes (R71: 1687.5, general knowledge G1).
The block itself never compares against it (R132). -/
def Config.tOneNominal : Micros := 3375 / 2

/-! Free values (R150, R220: "become unspecified"). Each is applied to the number of the INIT or power-on reset that
leaves the register unspecified; none has a body, so no claim can rest on a value (assumption 3). -/

opaque Config.freeLastCode : Nat → Code
opaque Config.freeScanI : Nat → Nat
opaque Config.freeStart : Nat → Nat
opaque Config.freeMType : Nat → MType
opaque Config.freeBitK : Nat → BitVec 6
opaque Config.freePayload : Nat → Payload

end Sys2Proof
end

