-- ==== Sys2Proof/Machine/Operands.lean ====
section
/-! DEFINITION. The operand forms of DECODE: the comparator and its windows (41_comparator.md), and the stage functions
that read the interval list: locate, classify, the structural validator and the bit converter (42 to 44). Each takes
the tolerance and the list as arguments and touches no register.

A read of `IV(i)` is `iv[i]?`; `none` is an index the list does not have. R41 and R42 say that no DECODE makes such a
read; where a function could be called so that it would, it answers `none` and its caller faults. -/

namespace Sys2Proof

/-! ## The comparator -/

/-- `win(v, R, B) := |v - R| < B * CFG_TOL`, exact and strict (R100). -/
def win (tol v r b : Micros) : Bool := decide (|v - r| < b * tol)

/-- `W_BURST` (R102). -/
def inBurst (tol v : Micros) : Bool := win tol v Config.params.tBurst Config.params.tBurst

/-- `W_NEW` (R102). -/
def inNew (tol v : Micros) : Bool := win tol v Config.params.tPauseNew Config.params.tPauseNew

/-- `W_REP_CLS`: the reference is `T_PAUSE_REP`, the tolerance base is `T_PAUSE_NEW` (R103). -/
def inRepCls (tol v : Micros) : Bool := win tol v Config.params.tPauseRep Config.params.tPauseNew

/-- `W_REP_VAL`, which no DECODE consults (R102, R121). -/
def inRepVal (tol v : Micros) : Bool := win tol v Config.params.tPauseRep Config.params.tPauseRep

/-- `W_SHORT` (R102). -/
def inShort (tol v : Micros) : Bool := win tol v Config.params.tShort Config.params.tShort

/-! ## The buffer's content as durations -/

/-- The duration an element holds, if it lies in the contract's domain: finite and not negative (R41, R44). -/
def Interval.duration : Interval → Option Micros
  | .us q => if q < 0 then none else some q
  | .nan => none
  | .inf _ => none

/-- The list `IV` of a buffer: `none` when some element is outside the contract's domain. -/
def durations : List Interval → Option (List Micros)
  | [] => some []
  | x :: xs =>
    match x.duration, durations xs with
    | some q, some qs => some (q :: qs)
    | _, _ => none

/-! ## Stage 1: the frame-start locator -/

/-- The locator's loop from index `i` on, over the elements not yet scanned (R110). -/
def locateFrom (tol : Micros) : List Micros → Nat → Option Nat
  | [], _ => none
  | v :: vs, i => if inBurst tol v then some i else locateFrom tol vs (i + 1)

/-- `locate(IV)`: the index of the first element in `W_BURST` (R110). -/
def locate (tol : Micros) (iv : List Micros) : Option Nat := locateFrom tol iv 0

/-! ## Stage 2: the message classifier -/

/-- `classify`, of the pause: New is tested before Repeat (R112, R113). -/
def classify (tol p : Micros) : MType :=
  if inNew tol p then .newMsg else if inRepCls tol p then .repeatMsg else .invalid

/-! ## Stage 3: the structural validator -/

/-- `valid_new(IV, s)`: the count, then the pause, then the element at ABSOLUTE index 66 (R120, R122). -/
def validNew (tol : Micros) (iv : List Micros) (s : Nat) : Option Verdict :=
  if iv.length - s < Config.params.nNew then some (.fail .structShort)
  else
    match iv[s + 1]?, iv[Config.params.idxTermNew]? with
    | some p, some t =>
      some (if inNew tol p then (if inShort tol t then .pass else .fail .malformed) else .fail .malformed)
    | _, _ => none

/-- `valid_rep(IV, s)`, the Repeat branch, which no DECODE consults (R121). -/
def validRep (tol : Micros) (iv : List Micros) (s : Nat) : Option Verdict :=
  if iv.length - s < Config.params.nRep then some (.fail .structShort)
  else
    match iv[s + 1]?, iv[Config.params.idxTermRep]? with
    | some p, some t =>
      some (if inRepVal tol p then (if inShort tol t then .pass else .fail .malformed) else .fail .malformed)
    | _, _ => none

/-! ## Stage 4: the pulse-to-bit converter -/

/-- `b(k)` from the second element of pair `k`: 0 exactly in `W_SHORT`, else 1 (R130, R132). -/
def sampleBit (tol v : Micros) : Bool := !inShort tol v

/-- The index of the sample of bit `k`: `s + FIRST_BIT_OFS + 1 + 2k` (R130). -/
def sampleIndex (s k : Nat) : Nat := s + Config.params.firstBitOfs + 1 + 2 * k

/-- `PAYLOAD[k] <- b`. -/
def setBit (p : Payload) (k : Nat) (b : Bool) : Payload :=
  if b then p ||| (1#32 <<< k) else p &&& ~~~(1#32 <<< k)

/-- The bits `b(0) .. b(n-1)` of the first `n` rounds of the converter's loop, in increasing `k` (R130). -/
def convertUpTo (tol : Micros) (iv : List Micros) (s : Nat) : Nat → Option Payload
  | 0 => some 0#32
  | k + 1 =>
    match convertUpTo tol iv s k, iv[sampleIndex s k]? with
    | some p, some v => some (setBit p k (sampleBit tol v))
    | _, _ => none

/-- `bits(IV, s)`: all `N_BITS` rounds (R130). Every bit of PAYLOAD is written, so what it held before does not
matter. -/
def convert (tol : Micros) (iv : List Micros) (s : Nat) : Option Payload :=
  convertUpTo tol iv s Config.params.nBits

/-! ## The payload's fields (R66) -/

/-- `P[7:0]`, the standard protocol's address `A`. -/
def addrField (p : Payload) : Byte := p.extractLsb' 0 8

/-- `P[15:8]`, the standard protocol's address inverse `B`. -/
def addrInvField (p : Payload) : Byte := p.extractLsb' 8 8

/-- `P[15:0]`, the extended protocol's address `E`. -/
def extAddrField (p : Payload) : BitVec 16 := p.extractLsb' 0 16

/-- `P[23:16]`, the command `C`. -/
def cmdField (p : Payload) : Byte := p.extractLsb' 16 8

/-- `P[31:24]`, the command inverse `K`. -/
def cmdInvField (p : Payload) : Byte := p.extractLsb' 24 8

/-- The payload pattern `KKKKKKKKCCCCCCCCBBBBBBBBAAAAAAAA`. -/
def stdPayload (a b c k : Byte) : Payload := k ++ c ++ b ++ a

/-- The payload pattern `KKKKKKKKCCCCCCCCEEEEEEEEEEEEEEEE`. -/
def extPayload (e : BitVec 16) (c k : Byte) : Payload := k ++ c ++ e

end Sys2Proof
end

