-- ==== Sys2Proof/Machine/Flags.lean ====
section
/-! DEFINITION. The flag and result computations: the complement checks, the integer packer (45_redundancy_pack.md),
and the codes of the enumerations (R27, R28, R67). -/

namespace Sys2Proof

/-! ## Complement checks -/

/-- Two 8-bit fields are complementary iff their exclusive-or is `0xFF` (R140). -/
def complementary (x y : Byte) : Bool := x ^^^ y == 0xFF#8

/-- `cmd_ok` (R141): in both protocol variants. -/
def cmdOk (p : Payload) : Bool := complementary (cmdField p) (cmdInvField p)

/-- `addr_ok` (R142, R143): no check under the extended protocol. -/
def addrOk (ext : Bool) (p : Payload) : Bool := ext || complementary (addrField p) (addrInvField p)

/-! ## The integer packer -/

/-- The 16-bit address of R144: `zext_16(P[7:0])`, or `P[15:0]` under the extended protocol. -/
def addressOf (ext : Bool) (p : Payload) : BitVec 16 :=
  if ext then extAddrField p else (addrField p).setWidth 16

/-- `pack`: `zext_24(address << 8 | command)` (R144). -/
def pack (ext : Bool) (p : Payload) : Code :=
  ((addressOf ext p).setWidth 24 <<< 8) ||| (cmdField p).setWidth 24

/-- The source's reconstruction of a field from the bit slice `bits[i : i+n]`, as R144 quotes it: over the slice in
reverse order, `acc := (acc << 1) | bit`. -/
def packLoop (p : Payload) (i : Nat) : Nat → Nat → Nat
  | 0, acc => acc
  | n + 1, acc => packLoop p i n (2 * acc + (p.getLsbD (i + n)).toNat)

/-! ## Codes -/

/-- The code of `MTYPE` (R27). -/
def MType.code : MType → BitVec 2
  | .invalid => 0b00#2
  | .newMsg => 0b01#2
  | .repeatMsg => 0b10#2

/-- The code of `FSM` (R28). -/
def Fsm.code : Fsm → BitVec 3
  | .idle => 0b000#3
  | .locate => 0b001#3
  | .classify => 0b010#3
  | .validate => 0b011#3
  | .convert => 0b100#3
  | .check => 0b101#3
  | .commit => 0b110#3

/-- The code of `RES_STATUS` (R67). -/
def Status.code : Status → BitVec 4
  | .none => 0#4
  | .okNew => 1#4
  | .okRepeat => 2#4
  | .noLeadingBurst => 3#4
  | .unclassifiable => 4#4
  | .structShort => 5#4
  | .malformed => 6#4
  | .redundancyMismatch => 7#4
  | .repeatWithoutPrior => 8#4

/-- The `RES_VALID` that goes with a status (R67, third column). -/
def Status.valid : Status → Bool
  | .okNew => true
  | .okRepeat => true
  | _ => false

end Sys2Proof
end

