-- ==== Sys2Proof/Syntax.lean ====
section
/-! DEFINITION. The instruction syntax: one constructor for each of the five rows of spec/opcode_table.json, and the
command as it stands at the block's interface (30_encoding.md R60 to R62). -/

namespace Sys2Proof

/-- The opcode map (R72): the two commands, and the three kinds of frame a DECODE can find in the interval buffer.

A command INIT carries its arguments. A DECODE's argument is the interval list, which stands in the buffer (R62), so
`decode` has no operand. The frame forms are what a DECODE command IS once the buffer's content is read (R65, R72):
`start` is the index `START` of the leading burst, and the payload fields are those of R66. A frame form is selected by
the pause; that the frame may be short or malformed is for its meaning (R120). -/
inductive Instr where
  /-- `INIT ext tol`, `CMD = 1` (R150). -/
  | init (ext : Bool) (tol : Micros)
  /-- `DECODE`, `CMD = 0`, of whatever list the buffer holds (R151). -/
  | decode
  /-- A New frame under the standard protocol: address `a`, address inverse `b`, command `c`, command inverse `k`. -/
  | frameNewStd (start : Nat) (a b c k : Byte)
  /-- A New frame under the extended protocol: 16-bit address `e`, command `c`, command inverse `k`. -/
  | frameNewExt (start : Nat) (e : BitVec 16) (c k : Byte)
  /-- A Repeat frame, which carries no payload. -/
  | frameRepeat (start : Nat)
  deriving DecidableEq, Repr

/-- One command at the host interface (R60): the 1-bit opcode `CMD` and INIT's two arguments. A DECODE uses neither
argument; its list is in the interval buffer. `tol` is a rational: the spec gives it no bits (R61, decision D3). -/
structure Command where
  cmd : BitVec 1
  ext : BitVec 1
  tol : Micros
  deriving DecidableEq, Repr

end Sys2Proof
end

