-- ==== Sys2Proof/WellFormed.lean ====
section
/-! DEFINITION. Well-formed instructions. INIT has no check: every `ext` and every rational `tol` is accepted (R150).
DECODE has none: its list is in the buffer, and a list outside the contract is refused by DECODE itself (R212). A New
frame is PLACEABLE when it passes the structural validator at its place, and COMPLEMENTARY when its inverse fields are
what the table's pattern demands (`K = ~C`, `B = ~A`). -/

namespace Sys2Proof

/-- R122: is the element at absolute index 66 a short one, when a nominal New frame with payload `p` starts at `start`
after `start` short intervals? Frame-relative it is element `66 - start`: the burst and the pause are not short, the
marks and the terminator are, and the second element of pair `k` is short iff `b(k) = 0`. -/
def terminatorPlaced (start : Nat) (p : Payload) : Bool :=
  if Config.params.idxTermNew < start then true
  else
    let r := Config.params.idxTermNew - start
    if r < Config.params.firstBitOfs then false
    else if r % 2 = 0 then true
    else !p.getLsbD ((r - Config.params.firstBitOfs - 1) / 2)

/-- A New frame is structurally valid at its place (R120, R122). A Repeat frame is not checked (R156). -/
def Instr.placeable : Instr → Bool
  | .init _ _ => true
  | .decode => true
  | .frameNewStd start a b c k => terminatorPlaced start (stdPayload a b c k)
  | .frameNewExt start e c k => terminatorPlaced start (extPayload e c k)
  | .frameRepeat _ => true

/-- The inverse fields hold the complements (R66, R140). -/
def Instr.complementary : Instr → Bool
  | .init _ _ => true
  | .decode => true
  | .frameNewStd _ a b c k => Sys2Proof.complementary a b && Sys2Proof.complementary c k
  | .frameNewExt _ _ c k => Sys2Proof.complementary c k
  | .frameRepeat _ => true

/-- A well-formed instruction. -/
def Instr.wf (i : Instr) : Bool := i.placeable && i.complementary

end Sys2Proof
end

