-- ==== Sys2Proof/Decode.lean ====
section
/-! DEFINITION. The instruction decoder and, after it, the encoder.

The decoder reads the command's opcode bit (R60) and, for a DECODE, the interval list: "The pause alone selects the frame
kind" together with `CFG_EXT` (R65, R72). It is total. Every opcode bit has a meaning (R60), so no command is refused
here; what is outside the interface contract is refused by the meanings. The table's words are rejected by name where
they are no instruction's (`TableReject`). -/

namespace Sys2Proof

/-! ## Decoder -/

/-- The payload operands of the New frame at `s`: the converter's word (R130). A frame cut short before its last sample
has none; its operands are 0, and its meaning never reads them (assumption 6). -/
def framePayload (tol : Micros) (iv : List Micros) (s : Nat) : Payload := (convert tol iv s).getD 0#32

/-- The frame kind of an interval list, with the frame's operands. "The pause `IV(s+1)` alone selects the frame kind"
(R65), and `CFG_EXT` the variant (R72); whether the frame is structurally valid is for its meaning. A list with no burst,
no pause, or a pause in neither window is no frame kind: the plain `DECODE` (assumption 6). -/
def frameForm (ext : Bool) (tol : Micros) (iv : List Micros) : Instr :=
  match locate tol iv with
  | none => .decode
  | some b =>
    match iv[b + 1]? with
    | none => .decode
    | some p =>
      match classify tol p with
      | .invalid => .decode
      | .repeatMsg => .frameRepeat b
      | .newMsg =>
        let w := framePayload tol iv b
        if ext then .frameNewExt b (extAddrField w) (cmdField w) (cmdInvField w)
        else .frameNewStd b (addrField w) (addrInvField w) (cmdField w) (cmdInvField w)

/-- The instruction a command is, under the configuration `ext`, `tol` and with `buffer` in the interval buffer. -/
def decode (ext : Bool) (tol : Micros) (c : Command) (buffer : List Interval) : Instr :=
  if c.cmd = 1#1 then .init (c.ext == 1#1) c.tol
  else
    match durations buffer with
    | none => .decode
    | some iv => frameForm ext tol iv

/-! ## Encoder -/

/-- The two elements of bit pair `k` (R71). -/
def nominalPair (p : Payload) (k : Nat) : List Micros :=
  [Config.params.tShort, if p.getLsbD k then Config.tOneNominal else Config.params.tShort]

/-- The synthetic nominal New frame with payload `p` (R71). -/
def nominalFrame (p : Payload) : List Micros :=
  Config.params.tBurst :: Config.params.tPauseNew ::
    ((List.range Config.params.nBits).flatMap (nominalPair p) ++ [Config.params.tShort])

/-- `DECODE REPEAT`'s list (R70). -/
def repeatFrame : List Micros := [Config.params.tBurst, Config.params.tPauseRep, Config.params.tShort]

/-- The standard `NEC(addr, cmd)` list (R71). -/
def necStd (addr cmd : Byte) : List Micros := nominalFrame (stdPayload addr (~~~addr) cmd (~~~cmd))

/-- The extended `NEC(addr, cmd)` list (R71). -/
def necExt (addr : BitVec 16) (cmd : Byte) : List Micros := nominalFrame (extPayload addr cmd (~~~cmd))

/-- A frame after `start` short intervals, as the buffer holds it. -/
def placed (start : Nat) (frame : List Micros) : List Interval :=
  (List.replicate start Config.params.tShort ++ frame).map .us

/-- The command bit of DECODE with idle INIT arguments. -/
def decodeCommand : Command := ⟨0#1, 0#1, 0⟩

/-- The command and the buffer that an instruction is at the interface (R60, R63, R64, R71). -/
def encode : Instr → Command × List Interval
  | .init ext tol => (⟨1#1, BitVec.ofBool ext, tol⟩, [])
  | .decode => (decodeCommand, [])
  | .frameNewStd start a b c k => (decodeCommand, placed start (nominalFrame (stdPayload a b c k)))
  | .frameNewExt start e c k => (decodeCommand, placed start (nominalFrame (extPayload e c k)))
  | .frameRepeat start => (decodeCommand, placed start repeatFrame)

/-! ## The opcode table's words -/

/-- Why a table word is no instruction. -/
inductive TableReject where
  /-- A command word has a bit set above the 1-bit opcode. -/
  | bitsAboveOpcode
  /-- A bit is set above the row's width. -/
  | bitsAboveRow
  /-- No row has this many bits. -/
  | noSuchWidth
  deriving DecidableEq, Repr

/-- What a word of spec/opcode_table.json is at the interface. A row of at most one byte is a command: `CMD` is bit 0
and its operands are zeros. A row of four bytes is a payload word, sent as its nominal frame. The row of no bits is the
Repeat frame (assumption 7). -/
def tableTransfer (nbits w : Nat) : Except TableReject (Command × List Interval) :=
  if nbits = 0 then (if w = 0 then .ok (encode (.frameRepeat 0)) else .error .bitsAboveRow)
  else if nbits ≤ 8 then
    (if w < 2 then .ok (⟨BitVec.ofNat 1 w, 0#1, 0⟩, []) else .error .bitsAboveOpcode)
  else if nbits = 32 then
    (if w < 2 ^ 32 then .ok (decodeCommand, placed 0 (nominalFrame (BitVec.ofNat 32 w)))
     else .error .bitsAboveRow)
  else .error .noSuchWidth

/-- The instruction the decoder reads from a table word, under the default configuration (R8). -/
def decodeTableWord (nbits w : Nat) : Option Instr :=
  match tableTransfer nbits w with
  | .ok (c, buffer) => some (decode Config.params.extDefault Config.params.tolDefault c buffer)
  | .error _ => none

end Sys2Proof
end

