-- ==== Sys2Proof/Machine/State.lean ====
section
/-! DEFINITION. The state of the block: every register of 10_state.md R20, the interval buffer (20_memory.md R40), and
the host side of the interface, as plain data; its state after power-on reset (R220); and the reasons a step can stop. -/

namespace Sys2Proof.Machine

/-- The interval buffer, the block's one memory (R40). Element `i` of the list is `IV(i)`: the address space is the
index space `0..N-1` (R48) and an element is one whole duration, not bytes (R45), so the list itself is the canonical
form: equal buffers are equal lists (assumption 4). -/
abbrev Memory := List Interval

/-- What the outside can do to the block at its interface, one move at a time. -/
inductive HostMove where
  /-- Power-on reset (R220). -/
  | powerOnReset
  /-- The collector places a list in the interval buffer (R40, R62). -/
  | fillBuffer (iv : Memory)
  /-- The host issues a command (R60). -/
  | command (c : Command)
  deriving DecidableEq, Repr

/-- The block and its interface. -/
structure State where
  /-- `CFG_EXT` (R21): the extended protocol is selected. -/
  cfgExt : Bool
  /-- `CFG_TOL` (R22): the timing tolerance. -/
  cfgTol : Micros
  /-- `LAST_VALID` (R23). -/
  lastValid : Bool
  /-- `LAST_CODE` (R23, R25). -/
  lastCode : Code
  /-- `RES_VALID` (R26). -/
  resValid : Bool
  /-- `RES_VALUE` (R26). -/
  resValue : Code
  /-- `RES_STATUS` (R26, R67). -/
  resStatus : Status
  /-- `FSM` (R28). -/
  fsm : Fsm
  /-- `SCAN_I` (R29). -/
  scanI : Nat
  /-- `START` (R29). -/
  start : Nat
  /-- `MTYPE` (R27). -/
  mtype : MType
  /-- `BIT_K` (R29). -/
  bitK : BitVec 6
  /-- `PAYLOAD` (R29). -/
  payload : Payload
  /-- The interval buffer (R40). -/
  buffer : Memory
  /-- `MAX_LEN`, the capacity of this block's buffer (R8, R43): an OPEN parameter, at least 67, that nothing changes
  (assumption 2). -/
  maxLen : Nat
  /-- THE MODEL'S OWN: the host's moves still to come, in the order the host issues them (R49; assumption 1). -/
  host : List HostMove
  /-- THE MODEL'S OWN: a power-on reset or an INIT has happened (R222, R212 item 4; assumption 5). -/
  ready : Bool
  /-- THE MODEL'S OWN: how many times registers have been left unspecified, the argument of the free values
  (assumption 3). -/
  draws : Nat
  deriving DecidableEq, Repr

/-- The machine right after power-on reset (R220). `LAST_CODE`, `SCAN_I`, `START`, `MTYPE`, `BIT_K` and `PAYLOAD` are
unspecified there; the zeros are this model's (assumption 8). -/
def State.reset : State where
  cfgExt := Config.params.extDefault
  cfgTol := Config.params.tolDefault
  lastValid := false
  lastCode := 0#24
  resValid := false
  resValue := 0#24
  resStatus := .none
  fsm := .idle
  scanI := 0
  start := 0
  mtype := .invalid
  bitK := 0#6
  payload := 0#32
  buffer := []
  maxLen := Config.params.maxLenAtReset
  host := []
  ready := true
  draws := 0

/-- Why the block stops with a fault. No fault is in the spec: both are reads or writes the spec says are never made
(R10, R41, R158), and both are reachable only by a micro-step from a state that no run reaches. -/
inductive Fault where
  /-- A rule would evaluate `IV(i)` with `i >= N`. Raised by the VALIDATE and CONVERT micro-steps. DECODE and
  the New frame forms would raise it if a stage function answered that it read outside the list, which none does. Safe:
  the machine stops where the spec says nothing. -/
  | bufferReadOutOfRange
  /-- CONVERT would write a PAYLOAD bit above bit 31. Raised by the CONVERT micro-step. Safe, for the same reason. -/
  | payloadBitOutOfRange
  deriving DecidableEq, Repr

/-- Why the model refuses a host move: the four items of R212, each outside the interface contract. All are safe:
"Refusal errs toward unprovable". -/
inductive Refusal where
  /-- An instruction without a meaning. No arm of `exec` raises it. Safe. -/
  | notModelled (mnemonic : String)
  /-- R212 item 1: a DECODE whose list has `N > MAX_LEN`. Raised by DECODE and the frame forms. Safe. -/
  | listTooLong
  /-- R212 item 2: a DECODE whose list holds a negative, NaN or infinite value. Raised by DECODE and the frame forms.
  Safe. -/
  | intervalOutOfDomain
  /-- R212 item 3: a command, or a change of the interval buffer, while `FSM != IDLE`. Raised by every command and by
  the collector's move. Safe. -/
  | hostMoveWhileBusy
  /-- R212 item 4: a DECODE before any INIT or power-on reset. Raised by DECODE and the frame forms. Safe. -/
  | decodeBeforeReset
  deriving DecidableEq, Repr

/-- The answer of one step of this machine. -/
abbrev Result := Host.Outcome State Fault Refusal

end Sys2Proof.Machine
end

