-- ==== Sys2Proof/Machine/Ops.lean ====
section
/-! DEFINITION. The operations on the state that the meanings share: the accepted argument of a DECODE, `finish`, the
one way every error is taken (60_exceptions.md R200), the Repeat path, CHECK with COMMIT, and initialisation. -/

namespace Sys2Proof.Machine

/-! ## The interval buffer -/

/-- The read of one element: `none` outside `0..N-1` (R41, R48). The read has no side effect (R47). -/
def Memory.read (m : Memory) (i : Nat) : Option Interval := m[i]?

/-- The buffer is within the interface contract: at most `MAX_LEN` elements, each a non-negative rational
(R41, R43, R44). -/
def Memory.wf (maxLen : Nat) (m : Memory) : Bool := decide (m.length ≤ maxLen) && (durations m).isSome

/-- The collector's move (R40, R62). The buffer must not change during a DECODE (R223). -/
def fillBuffer (iv : Memory) (s : State) : Result :=
  if s.fsm = .idle then .next { s with buffer := iv } else .refused .hostMoveWhileBusy

/-! ## The argument of a DECODE -/

/-- The list `IV`, or the item of R212 that stands against it: no reset yet, too long, out of domain. -/
def bufferArgument (s : State) : Except Refusal (List Micros) :=
  if s.ready = false then .error .decodeBeforeReset
  else if s.maxLen < s.buffer.length then .error .listTooLong
  else
    match durations s.buffer with
    | none => .error .intervalOutOfDomain
    | some iv => .ok iv

/-- The list a DECODE command works on. While `FSM != IDLE` the command itself is refused (R162). -/
def decodeArgument (s : State) : Except Refusal (List Micros) :=
  if s.fsm = .idle then bufferArgument s else .error .hostMoveWhileBusy

/-! ## Ending a DECODE -/

/-- `finish(valid, value, status)` (R152). -/
def finish (valid : Bool) (value : Code) (status : Status) (s : State) : State :=
  { s with resValid := valid, resValue := value, resStatus := status, fsm := .idle }

/-- How every error is taken: `finish(0, 0, code)`. "No state is saved, no vector is taken, and no mode changes"
(R200, R205). -/
def failWith (status : Status) (s : State) : State := finish false 0#24 status s

/-- The Repeat path (R156). -/
def repeatPath (s : State) : State :=
  if s.lastValid then finish true s.lastCode .okRepeat s else failWith .repeatWithoutPrior s

/-- COMMIT (R160). -/
def commitPayload (s : State) : State :=
  finish true (pack s.cfgExt s.payload) .okNew
    { s with lastValid := true, lastCode := pack s.cfgExt s.payload }

/-- Stage 5 of R151: CHECK (R159), and COMMIT when both checks pass. -/
def checkPayload (s : State) : State :=
  if cmdOk s.payload && addrOk s.cfgExt s.payload then commitPayload s
  else failWith .redundancyMismatch s

/-! ## Initialisation -/

/-- What INIT writes (R150). `LAST_CODE` and the scratch registers become unspecified: free values (assumption 3). -/
def initialise (ext : Bool) (tol : Micros) (s : State) : State :=
  { s with
    cfgExt := ext, cfgTol := tol
    lastValid := false, lastCode := Config.freeLastCode s.draws
    resValid := false, resValue := 0#24, resStatus := .none
    fsm := .idle
    scanI := Config.freeScanI s.draws, start := Config.freeStart s.draws, mtype := Config.freeMType s.draws
    bitK := Config.freeBitK s.draws, payload := Config.freePayload s.draws
    ready := true, draws := s.draws + 1 }

/-- Power-on reset performs INIT with the default configuration (R220). -/
def powerOnReset (s : State) : State := initialise Config.params.extDefault Config.params.tolDefault s

end Sys2Proof.Machine
end

