-- ==== Sys2Proof/Machine/Configure.lean ====
section
/-! DEFINITION. The meaning of the command INIT (46_decoder_fsm.md R150). -/

namespace Sys2Proof.Machine

/-- `INIT(ext, tol)`. Every `ext` and every rational `tol` is accepted; a command while `FSM != IDLE` is refused
(R162). -/
def execInit (ext : Bool) (tol : Micros) (s : State) : Result :=
  if s.fsm = .idle then .next (initialise ext tol s) else .refused .hostMoveWhileBusy

end Sys2Proof.Machine
end

