-- ==== Sys2Proof/Machine/DecodeCommand.lean ====
section
/-! DEFINITION. The meaning of the command DECODE, at transaction level (46_decoder_fsm.md R151). -/

namespace Sys2Proof.Machine

/-- The scratch registers as the New path leaves them: the frame starts at `b`, its payload is `w`, 32 bits are
converted (R154, R155, R158; assumption 9). -/
def newFrameScratch (b : Nat) (w : Payload) (s : State) : State :=
  { s with scanI := b, start := b, mtype := .newMsg, payload := w, bitK := BitVec.ofNat 6 Config.params.nBits }

/-- The New path from the structural validator on (R120, R157 to R160), for a frame at `b` that carries `payload`. The
validator's failure ends the DECODE before the payload matters; a frame that passes has one (R42). -/
def newPath (iv : List Micros) (b : Nat) (payload : Option Payload) (s : State) : Result :=
  match validNew s.cfgTol iv b with
  | none => .fault .bufferReadOutOfRange
  | some (.fail e) => .next (failWith e { s with scanI := b, start := b, mtype := .newMsg })
  | some .pass =>
    match payload with
    | none => .fault .bufferReadOutOfRange
    | some w => .next (checkPayload (newFrameScratch b w s))

/-- `DECODE(IV)` stage by stage (R151), with the scratch registers the state machine writes on the way. -/
def decodeList (iv : List Micros) (s : State) : Result :=
  match locate s.cfgTol iv with
  | none => .next (failWith .noLeadingBurst { s with scanI := iv.length })
  | some b =>
    match iv[b + 1]? with
    | none => .next (failWith .structShort { s with scanI := b, start := b, mtype := .invalid })
    | some p =>
      match classify s.cfgTol p with
      | .invalid => .next (failWith .unclassifiable { s with scanI := b, start := b, mtype := .invalid })
      | .repeatMsg => .next (repeatPath { s with scanI := b, start := b, mtype := .repeatMsg })
      | .newMsg => newPath iv b (convert s.cfgTol iv b) s

/-- `DECODE` of the list in the interval buffer. -/
def execDecode (s : State) : Result :=
  match decodeArgument s with
  | .error r => .refused r
  | .ok iv => decodeList iv s

end Sys2Proof.Machine
end

