-- ==== Sys2Proof/Machine/FrameForms.lean ====
section
/-! DEFINITION. The meanings of the three frame forms of DECODE (30_encoding.md R72). The instruction decoder has found
the burst and the pause in the buffer and read the payload (R110, R112, R130); what is left is the structural validator
on the list in the buffer, for a New frame, and the frame's effect. -/

namespace Sys2Proof.Machine

/-- A New frame under the standard protocol (R120, R141, R142, R144, R160). -/
def execFrameNewStd (start : Nat) (a b c k : Byte) (s : State) : Result :=
  match decodeArgument s with
  | .error r => .refused r
  | .ok iv => newPath iv start (some (stdPayload a b c k)) s

/-- A New frame under the extended protocol (R120, R141, R143, R144, R160). -/
def execFrameNewExt (start : Nat) (e : BitVec 16) (c k : Byte) (s : State) : Result :=
  match decodeArgument s with
  | .error r => .refused r
  | .ok iv => newPath iv start (some (extPayload e c k)) s

/-- A Repeat frame (R156). -/
def execFrameRepeat (start : Nat) (s : State) : Result :=
  match decodeArgument s with
  | .error r => .refused r
  | .ok _ => .next (repeatPath { s with scanI := start, start := start, mtype := .repeatMsg })

end Sys2Proof.Machine
end

