-- ==== Sys2Proof/Machine/Dispatch.lean ====
section
/-! DEFINITION. One arm per constructor of Instr. -/

namespace Sys2Proof.Machine

def exec (i : Instr) (s : State) : Host.Outcome State Fault Refusal :=
  match i with
  | .init ext tol => Sys2Proof.Machine.execInit ext tol s
  | .decode => Sys2Proof.Machine.execDecode s
  | .frameNewStd start a b c k => Sys2Proof.Machine.execFrameNewStd start a b c k s
  | .frameNewExt start e c k => Sys2Proof.Machine.execFrameNewExt start e c k s
  | .frameRepeat start => Sys2Proof.Machine.execFrameRepeat start s

end Sys2Proof.Machine
end

