-- ==== Sys2Proof/Machine/HostPort.lean ====
section
/-! DEFINITION. What the host can read of the block: the result registers and nothing else (10_state.md R26, R32;
30_encoding.md R66). -/

namespace Sys2Proof.Machine

/-- The three host-readable registers, as the words the port shows. -/
structure HostView where
  valid : BitVec 1
  value : Code
  status : BitVec 4
  deriving DecidableEq, Repr

/-- The host's read: at any time the block is not in a DECODE (R26). -/
def hostView (s : State) : Option HostView :=
  if s.fsm = .idle then some ⟨BitVec.ofBool s.resValid, s.resValue, s.resStatus.code⟩ else none

/-- The integer view `RES_VALID ? RES_VALUE : -1` (R66). -/
def integerView (s : State) : Int := if s.resValid then (s.resValue.toNat : Int) else -1

end Sys2Proof.Machine
end

