-- ==== Sys2Proof/Machine/MicroSteps.lean ====
section
/-! DEFINITION. The state machine that realises DECODE, one micro-step per rule (46_decoder_fsm.md R153 to R160). -/

namespace Sys2Proof.Machine

/-- IDLE on a DECODE command (R153). -/
def beginDecode (s : State) : State := { s with scanI := 0, fsm := .locate }

/-- LOCATE, one scanned element (R154). -/
def microLocate (iv : List Micros) (s : State) : Result :=
  match iv[s.scanI]? with
  | none => .next (failWith .noLeadingBurst s)
  | some v =>
    if inBurst s.cfgTol v then .next { s with start := s.scanI, fsm := .classify }
    else .next { s with scanI := s.scanI + 1 }

/-- CLASSIFY (R155), with the Repeat path within the same step (R156). -/
def microClassify (iv : List Micros) (s : State) : Result :=
  match iv[s.start + 1]? with
  | none => .next (failWith .structShort { s with mtype := .invalid })
  | some p =>
    match classify s.cfgTol p with
    | .newMsg => .next { s with mtype := .newMsg, fsm := .validate }
    | .repeatMsg => .next (repeatPath { s with mtype := .repeatMsg })
    | .invalid => .next (failWith .unclassifiable { s with mtype := .invalid })

/-- VALIDATE: "This is `valid_new`" (R157). -/
def microValidate (iv : List Micros) (s : State) : Result :=
  match validNew s.cfgTol iv s.start with
  | none => .fault .bufferReadOutOfRange
  | some (.fail e) => .next (failWith e s)
  | some .pass => .next { s with bitK := 0#6, fsm := .convert }

/-- CONVERT, one bit (R158). -/
def microConvert (iv : List Micros) (s : State) : Result :=
  if s.bitK.toNat < Config.params.nBits then
    match iv[sampleIndex s.start s.bitK.toNat]? with
    | none => .fault .bufferReadOutOfRange
    | some v =>
      .next { s with
        payload := setBit s.payload s.bitK.toNat (sampleBit s.cfgTol v)
        bitK := s.bitK + 1#6
        fsm := if s.bitK.toNat = Config.params.nBits - 1 then .check else .convert }
  else .fault .payloadBitOutOfRange

/-- CHECK: the command check first, then the address check (R159, R146). -/
def microCheck (s : State) : Result :=
  if cmdOk s.payload = false then .next (failWith .redundancyMismatch s)
  else if addrOk s.cfgExt s.payload = false then .next (failWith .redundancyMismatch s)
  else .next { s with fsm := .commit }

/-- The micro-step that the `FSM` register enables. With no command, IDLE holds (R153). -/
def microStepOn (iv : List Micros) (s : State) : Result :=
  match s.fsm with
  | .idle => .next s
  | .locate => microLocate iv s
  | .classify => microClassify iv s
  | .validate => microValidate iv s
  | .convert => microConvert iv s
  | .check => microCheck s
  | .commit => .next (commitPayload s)

/-- What the block does when the host makes no move: IDLE holds (R153), and a DECODE in progress takes its next
micro-step. A DECODE whose argument is outside the contract is refused here as it is by DECODE (R212). -/
def microStep (s : State) : Result :=
  if s.fsm = .idle then .next s
  else
    match bufferArgument s with
    | .error r => .refused r
    | .ok iv => microStepOn iv s

end Sys2Proof.Machine
end

