-- ==== Sys2Proof/Machine/Step.lean ====
section
/-! DEFINITION. One step of the machine: the host's next move, taken whole (00_scope.md R7), or no move. -/

namespace Sys2Proof.Machine

/-- A command is decoded under the block's configuration, with the buffer as it stands, and executed as one atomic step
(R7, R49). -/
def step (s : State) : Host.Outcome State Fault Refusal :=
  match s.host with
  | [] => microStep s
  | .powerOnReset :: rest => .next (powerOnReset { s with host := rest })
  | .fillBuffer iv :: rest => fillBuffer iv { s with host := rest }
  | .command c :: rest => exec (decode s.cfgExt s.cfgTol c s.buffer) { s with host := rest }

/-- `s` with a table word as the host's very next command: its opcode at the head of the host's moves, its list in the
buffer, the block idle after a reset, and, for a frame, the default configuration that selects it
(assumption 7). -/
def State.withFetchWord (s : State) (nbits w : Nat) : State :=
  match tableTransfer nbits w with
  | .error _ => s
  | .ok (c, buffer) =>
    { s with
      host := .command c :: s.host, buffer := buffer, fsm := .idle, ready := true
      cfgExt := if 0 < nbits ∧ nbits ≤ 8 then s.cfgExt else Config.params.extDefault
      cfgTol := if 0 < nbits ∧ nbits ≤ 8 then s.cfgTol else Config.params.tolDefault }

end Sys2Proof.Machine
end

