-- ==== Sys2Proof/Safety.lean ====
section
/-! DEFINITION. What a safe run is, in the terms the statements use: the invariant of the block, the outcomes that are
safe, what a DECODE may read, and which registers are specified. -/

namespace Sys2Proof

/-! ## The frame in a list, as the rules describe it -/

/-- `b` is the index of the first element of the list in `W_BURST` (R110). -/
def FirstBurst (tol : Micros) (iv : List Micros) (b : Nat) : Prop :=
  (∃ v, iv[b]? = some v ∧ win tol v Config.params.tBurst Config.params.tBurst = true) ∧
  ∀ j < b, ∀ v, iv[j]? = some v → win tol v Config.params.tBurst Config.params.tBurst = false

/-- The pause of the frame at `b` classifies New: it is in `W_NEW` (R112). -/
def PauseIsNew (tol : Micros) (iv : List Micros) (b : Nat) : Prop :=
  ∃ p, iv[b + 1]? = some p ∧ win tol p Config.params.tPauseNew Config.params.tPauseNew = true

/-- The pause of the frame at `b` classifies Repeat: in `W_REP_CLS` and not in `W_NEW` (R112, R113). -/
def PauseIsRepeat (tol : Micros) (iv : List Micros) (b : Nat) : Prop :=
  ∃ p, iv[b + 1]? = some p ∧ win tol p Config.params.tPauseNew Config.params.tPauseNew = false ∧
    win tol p Config.params.tPauseRep Config.params.tPauseNew = true

/-- The pause of the frame at `b` classifies Invalid: in neither window (R112). -/
def PauseIsInvalid (tol : Micros) (iv : List Micros) (b : Nat) : Prop :=
  ∃ p, iv[b + 1]? = some p ∧ win tol p Config.params.tPauseNew Config.params.tPauseNew = false ∧
    win tol p Config.params.tPauseRep Config.params.tPauseNew = false

/-- At least 67 intervals from `b` on, and the element at absolute index 66 is in `W_SHORT` (R120). -/
def CountAndTerminatorOk (tol : Micros) (iv : List Micros) (b : Nat) : Prop :=
  Config.params.nNew ≤ iv.length - b ∧
  ∃ v, iv[Config.params.idxTermNew]? = some v ∧ win tol v Config.params.tShort Config.params.tShort = true

/-- `w` is the payload of the frame at `b`: bit `k` is 0 exactly when `IV(b + 3 + 2k)` is in `W_SHORT` (R130). -/
def PayloadAt (tol : Micros) (iv : List Micros) (b : Nat) (w : Payload) : Prop :=
  ∀ k < Config.params.nBits, ∃ v, iv[b + 3 + 2 * k]? = some v ∧
    w.getLsbD k = !win tol v Config.params.tShort Config.params.tShort

/-- Both complement checks pass on the payload `w` (R140 to R143), bit by bit. -/
def ChecksPass (ext : Bool) (w : Payload) : Prop :=
  (∀ i < 8, w.getLsbD (16 + i) ≠ w.getLsbD (24 + i)) ∧
  (ext = false → ∀ i < 8, w.getLsbD i ≠ w.getLsbD (8 + i))

/-- The result word of a payload: `{A, C}` zero-extended, or `{E, C}` (R66, R144). -/
def ResultWord (ext : Bool) (w : Payload) : Code :=
  if ext then (w.extractLsb' 0 16 ++ w.extractLsb' 16 8 : BitVec 24)
  else (0#8 ++ w.extractLsb' 0 8 ++ w.extractLsb' 16 8 : BitVec 24)

end Sys2Proof

namespace Sys2Proof.Machine

/-! ## The invariant -/

/-- The result registers agree with each other and with `LAST_*` (R26, R67, R152, R156, R160). -/
def State.ResultInv (s : State) : Prop :=
  s.resValid = s.resStatus.valid ∧
  (s.resValid = false → s.resValue = 0#24) ∧
  (s.resValid = true → s.lastValid = true ∧ s.resValue = s.lastCode)

/-- "When `CFG_EXT = 0`, `LAST_CODE[23:16] = 0`", while `LAST_VALID = 1` (R24). -/
def State.LastInv (s : State) : Prop :=
  s.lastValid = true → s.cfgExt = false → s.lastCode.extractLsb' 16 8 = 0#8

/-- In each `FSM` state, the indices its micro-step reads are in range (R42). -/
def State.BusyInv (s : State) : Prop :=
  match s.fsm with
  | .idle => True
  | .locate => s.scanI ≤ s.buffer.length
  | .classify => s.start < s.buffer.length
  | .validate => s.start + 1 < s.buffer.length ∧ s.mtype = .newMsg
  | .convert =>
    s.start + Config.params.nNew ≤ s.buffer.length ∧ s.bitK.toNat < Config.params.nBits ∧ s.mtype = .newMsg
  | .check => s.mtype = .newMsg
  | .commit => s.mtype = .newMsg

/-- The capacity is legal: "`MAX_LEN` >= 67" (R43). -/
def State.CapacityInv (s : State) : Prop := Config.params.minMaxLen ≤ s.maxLen

/-- The invariant of the block. -/
def State.Inv (s : State) : Prop := s.ResultInv ∧ s.LastInv ∧ s.BusyInv ∧ s.CapacityInv

/-- A safe outcome: no fault, and the invariant in the next state. A refusal is the host's breach of the contract
(R212), of which nothing is claimed. -/
def Safe : Result → Prop
  | .next t => t.Inv
  | .fault _ => False
  | .refused _ => True

/-! ## What a DECODE reads -/

/-- The index `i` is one that a DECODE of `iv` reads (R42): the scan up to the leading burst, the pause, and, once the
frame is New with a full count, absolute index 66 and the 32 samples. Without a leading burst all of the list is
read. -/
def Reads (tol : Micros) (iv : List Micros) (i : Nat) : Prop :=
  match locate tol iv with
  | none => True
  | some b =>
    i ≤ b + 1 ∨
    (Config.params.nNew ≤ iv.length - b ∧ (iv[b + 1]?).map (classify tol) = some .newMsg ∧
      (i = Config.params.idxTermNew ∨ ∃ k < Config.params.nBits, i = sampleIndex b k))

/-! ## What a DECODE form may change -/

/-- The DECODE row and the three frame forms: the instructions a DECODE command can be (R72). -/
def isDecodeForm : Instr → Bool
  | .init _ _ => false
  | .decode => true
  | .frameNewStd _ _ _ _ _ => true
  | .frameNewExt _ _ _ _ => true
  | .frameRepeat _ => true

/-- The host-readable triple `(RES_VALID, RES_VALUE, RES_STATUS)` (R26). -/
def State.res (s : State) : Bool × Code × Status := (s.resValid, s.resValue, s.resStatus)

/-- `last_code` is as it was (R23). -/
def SameLast (s t : State) : Prop := t.lastValid = s.lastValid ∧ t.lastCode = s.lastCode

/-- The configuration is as it was (R21, R22). -/
def SameConfig (s t : State) : Prop := t.cfgExt = s.cfgExt ∧ t.cfgTol = s.cfgTol

/-- Everything outside the registers a DECODE may write is as it was: the configuration, EVERY element of the interval
buffer, its capacity, the host's pending moves, and the model's own bookkeeping. -/
def DecodeFrame (s t : State) : Prop :=
  SameConfig s t ∧ (∀ i, t.buffer.read i = s.buffer.read i) ∧ t.maxLen = s.maxLen ∧
  t.host = s.host ∧ t.ready = s.ready ∧ t.draws = s.draws

/-! ## Which registers are specified -/

/-- Two idle blocks that agree on everything the spec specifies (R221): the scratch registers may differ, and so may
`LAST_CODE` while `LAST_VALID = 0`. -/
def SameSpecified (s t : State) : Prop :=
  s.fsm = .idle ∧ t.fsm = .idle ∧
  s.cfgExt = t.cfgExt ∧ s.cfgTol = t.cfgTol ∧
  s.lastValid = t.lastValid ∧ (s.lastValid = true → s.lastCode = t.lastCode) ∧
  s.resValid = t.resValid ∧ s.resValue = t.resValue ∧ s.resStatus = t.resStatus ∧
  s.buffer = t.buffer ∧ s.maxLen = t.maxLen ∧ s.host = t.host ∧ s.ready = t.ready

/-- Two outcomes of the same kind, with states related by `R`, or the same reason. -/
def SameOutcome (R : State → State → Prop) : Result → Result → Prop
  | .next s, .next t => R s t
  | .fault a, .fault b => a = b
  | .refused a, .refused b => a = b
  | _, _ => False

/-- The block is ready for a DECODE of `iv`: idle, after a reset, with `iv` in the buffer within the contract
(R222, R224, R43, R44). -/
def DecodeReady (iv : List Micros) (s : State) : Prop :=
  s.fsm = .idle ∧ s.ready = true ∧ s.buffer.length ≤ s.maxLen ∧ durations s.buffer = some iv

end Sys2Proof.Machine
end

