-- ==== Sys2Proof/Certificates/Slice0/Obligations.lean ====
section
/-! DEFINITION. The statements for the provers. Each docstring names the rule of spec/ the statement formalises. -/

open Sys2Proof Sys2Proof.Machine

/-! ## Reset and INIT -/

/-- R220: the specified registers after power-on reset, from any state, and in `State.reset`; and after
`INIT(ext, tol)`. That the reset is accepted in a busy state too is the model's choice (assumption 11). -/
def Obligations.PowerOnResetIsInitWithDefaults : Prop :=
  (State.reset.cfgExt = false ∧ State.reset.cfgTol = 5 / 16 ∧ State.reset.lastValid = false ∧
    State.reset.res = (false, 0#24, .none) ∧ State.reset.fsm = .idle) ∧
  (∀ (s : State) (rest : List HostMove), s.host = .powerOnReset :: rest →
    ∃ t, step s = .next t ∧ t.cfgExt = false ∧ t.cfgTol = 5 / 16 ∧ t.lastValid = false ∧
      t.res = (false, 0#24, .none) ∧ t.fsm = .idle) ∧
  (∀ (ext : Bool) (tol : Micros) (s : State), s.fsm = .idle →
    ∃ t, exec (.init ext tol) s = .next t ∧ t.cfgExt = ext ∧ t.cfgTol = tol ∧ t.lastValid = false ∧
      t.res = (false, 0#24, .none) ∧ t.fsm = .idle)

/-- R150: what INIT writes, in every idle state and for every `ext` and rational `tol`, and its frame: no element of the
interval buffer, no pending move of the host, and not the capacity. INIT is the only instruction that changes the
configuration, and an INIT during a DECODE is refused. -/
def Obligations.InitConfiguresAndForgets : Prop :=
  (∀ (ext : Bool) (tol : Micros) (s : State), s.fsm = .idle →
    ∃ t, exec (.init ext tol) s = .next t ∧
      t.cfgExt = ext ∧ t.cfgTol = tol ∧ t.lastValid = false ∧
      t.resValid = false ∧ t.resValue = 0#24 ∧ t.resStatus = .none ∧ t.fsm = .idle ∧
      (∀ i, t.buffer.read i = s.buffer.read i) ∧ t.host = s.host ∧ t.maxLen = s.maxLen) ∧
  (∀ (i : Instr) (s t : State), exec i s = .next t → SameConfig s t ∨ ∃ ext tol, i = .init ext tol) ∧
  (∀ (ext : Bool) (tol : Micros) (s : State), s.fsm ≠ .idle →
    exec (.init ext tol) s = .refused .hostMoveWhileBusy)

/-- R222 with R212 item 4, in the model's terms (assumptions 1 and 5): a power-on reset from any state, and an INIT of an
idle block, leave the block idle and past its reset, with the buffer as it was; and after any operation that completes, a
DECODE is not refused for want of a reset. -/
def Obligations.ResetEnablesDecode : Prop :=
  (∀ (s : State) (rest : List HostMove), s.host = .powerOnReset :: rest →
    ∃ t, step s = .next t ∧ t.ready = true ∧ t.fsm = .idle ∧ t.host = rest ∧
      ∀ i, t.buffer.read i = s.buffer.read i) ∧
  (∀ (ext : Bool) (tol : Micros) (s : State), s.fsm = .idle →
    ∃ t, exec (.init ext tol) s = .next t ∧ t.ready = true ∧ t.fsm = .idle ∧
      ∀ i, t.buffer.read i = s.buffer.read i) ∧
  (∀ (i j : Instr) (s t : State), exec i s = .next t → exec j t ≠ .refused .decodeBeforeReset)

/-- R21, R22, R227: in one step, from any state, the configuration changes only by INIT, to its arguments, or by a
power-on reset, to the defaults; and both clear `LAST_VALID`. -/
def Obligations.ConfigurationChangesOnlyByInit : Prop :=
  ∀ s t : State, step s = .next t →
    SameConfig s t ∨
    (t.lastValid = false ∧
      ((∃ (c : Command) (rest : List HostMove), s.host = .command c :: rest ∧ c.cmd = 1#1 ∧
          t.cfgExt = (c.ext == 1#1) ∧ t.cfgTol = c.tol) ∨
       (∃ rest : List HostMove, s.host = .powerOnReset :: rest ∧ t.cfgExt = false ∧ t.cfgTol = 5 / 16)))

/-- R23: who writes `LAST_VALID` and `LAST_CODE`. -/
def Obligations.LastCodeWrittenOnlyByNewDecode : Prop :=
  (∀ (ext : Bool) (tol : Micros) (s t : State), exec (.init ext tol) s = .next t → t.lastValid = false) ∧
  (∀ (i : Instr) (s t : State), isDecodeForm i = true → exec i s = .next t →
    (t.resStatus = .okNew → t.lastValid = true ∧ t.lastCode = t.resValue) ∧
    (t.resStatus ≠ .okNew → SameLast s t)) ∧
  (∀ (s t : State) (iv : Memory) (rest : List HostMove), s.host = .fillBuffer iv :: rest → step s = .next t →
    SameLast s t)

/-! ## The comparator -/

/-- R100: the comparator, in both forms the rule gives, and its worked example. -/
def Obligations.ComparatorIsStrictAndExact : Prop :=
  (∀ tol v r b : Micros, win tol v r b = true ↔ |v - r| < b * tol) ∧
  (∀ tol v r b : Micros, win tol v r b = true ↔ r - b * tol < v ∧ v < r + b * tol) ∧
  win (5 / 16) (12375 / 2) 9000 9000 = false

/-- R101: with a tolerance of 0 or less every window is empty and every DECODE ends with NO_LEADING_BURST; with a
tolerance above 1 each window whose base is its reference admits every non-negative duration down to 0. -/
def Obligations.DegenerateTolerances : Prop :=
  (∀ tol v r b : Micros, tol ≤ 0 → 0 < b → win tol v r b = false) ∧
  (∀ (s : State) (iv : List Micros), DecodeReady iv s → s.cfgTol ≤ 0 →
    ∃ t, exec .decode s = .next t ∧ t.res = (false, 0#24, .noLeadingBurst)) ∧
  (∀ tol v r : Micros, 1 < tol → 0 < r → 0 ≤ v → v ≤ r → win tol v r r = true)

/-- R102: the five windows the block uses, as open intervals at the default tolerance. -/
def Obligations.WindowsAtDefaultTolerance : Prop :=
  ∀ v : Micros,
    (inBurst (5 / 16) v = true ↔ 12375 / 2 < v ∧ v < 23625 / 2) ∧
    (inNew (5 / 16) v = true ↔ 12375 / 4 < v ∧ v < 23625 / 4) ∧
    (inRepCls (5 / 16) v = true ↔ 3375 / 4 < v ∧ v < 14625 / 4) ∧
    (inRepVal (5 / 16) v = true ↔ 12375 / 8 < v ∧ v < 23625 / 8) ∧
    (inShort (5 / 16) v = true ↔ 12375 / 32 < v ∧ v < 23625 / 32)

/-- R103: the classifier's Repeat window has reference 2250 and base 4500 at every tolerance; at the default tolerance it
reaches twice as far on each side of 2250 as `W_REP_VAL`. -/
def Obligations.RepeatWindowUsesNewBase : Prop :=
  (∀ tol v : Micros, inRepCls tol v = true ↔ |v - 2250| < 4500 * tol) ∧
  (∀ d : Micros, inRepCls (5 / 16) (2250 + 2 * d) = true ↔ inRepVal (5 / 16) (2250 + d) = true)

/-- R104: the overlaps at the default tolerance, and the one the rule names at tolerance 1/2. -/
def Obligations.WindowOverlaps : Prop :=
  (∀ v : Micros, (inNew (5 / 16) v = true ∧ inRepCls (5 / 16) v = true) ↔ 12375 / 4 < v ∧ v < 14625 / 4) ∧
  (∀ v : Micros, inBurst (5 / 16) v = true →
    inNew (5 / 16) v = false ∧ inRepCls (5 / 16) v = false ∧ inRepVal (5 / 16) v = false ∧
      inShort (5 / 16) v = false) ∧
  (∀ v : Micros, inShort (5 / 16) v = true →
    inNew (5 / 16) v = false ∧ inRepCls (5 / 16) v = false ∧ inRepVal (5 / 16) v = false ∧
      inBurst (5 / 16) v = false) ∧
  (∀ v : Micros, (inBurst (1 / 2) v = true ∧ inNew (1 / 2) v = true) ↔ 4500 < v ∧ v < 6750)

/-- R105: the scaling law. -/
def Obligations.ScalingLaw : Prop :=
  ∀ tol r f : Micros, 0 < r → 0 < f → (win tol (f * r) r r = true ↔ |f - 1| < tol)

/-! ## Locator and classifier -/

/-- R110: the locator answers the first index in `W_BURST`, scanning the whole list, and NotFound when there is none;
START is the index found, and NotFound ends the DECODE with NO_LEADING_BURST. -/
def Obligations.LocatorFindsFirstBurst : Prop :=
  (∀ (tol : Micros) (iv : List Micros),
    (∀ b, locate tol iv = some b ↔ FirstBurst tol iv b) ∧
    (locate tol iv = none ↔ ∀ v ∈ iv, ¬ |v - 9000| < 9000 * tol)) ∧
  (∀ (s : State) (iv : List Micros), DecodeReady iv s →
    ∃ t, exec .decode s = .next t ∧ (∀ b, FirstBurst s.cfgTol iv b → t.start = b) ∧
      ((∀ v ∈ iv, ¬ |v - 9000| < 9000 * s.cfgTol) → t.res = (false, 0#24, .noLeadingBurst)))

/-- R111: with `Found(s)` the locator's answer rests on `IV(0..s)` alone. -/
def Obligations.LocatorReadsOnlyItsPrefix : Prop :=
  ∀ (tol : Micros) (iv iv' : List Micros) (b : Nat), locate tol iv = some b →
    (∀ i ≤ b, iv[i]? = iv'[i]?) → locate tol iv' = some b

/-- R112: the classifier, New before Repeat (R113 names the overlap at the default tolerance); the class a DECODE writes
to MTYPE, and Invalid ending it with UNCLASSIFIABLE. -/
def Obligations.ClassifierTestsNewFirst : Prop :=
  (∀ tol p : Micros,
    (classify tol p = .newMsg ↔ |p - 4500| < 4500 * tol) ∧
    (classify tol p = .repeatMsg ↔ ¬ |p - 4500| < 4500 * tol ∧ |p - 2250| < 4500 * tol) ∧
    (classify tol p = .invalid ↔ ¬ |p - 4500| < 4500 * tol ∧ ¬ |p - 2250| < 4500 * tol)) ∧
  (∀ p : Micros, 12375 / 4 < p → p < 14625 / 4 → classify (5 / 16) p = .newMsg ∧ inRepCls (5 / 16) p = true) ∧
  (∀ (s : State) (iv : List Micros) (b : Nat), DecodeReady iv s → FirstBurst s.cfgTol iv b → b + 1 < iv.length →
    ∃ t, exec .decode s = .next t ∧ (PauseIsNew s.cfgTol iv b → t.mtype = .newMsg) ∧
      (PauseIsRepeat s.cfgTol iv b → t.mtype = .repeatMsg) ∧
      (PauseIsInvalid s.cfgTol iv b → t.mtype = .invalid ∧ t.res = (false, 0#24, .unclassifiable)))

/-- R114: a burst at the last element ends the DECODE with STRUCT_SHORT and classification Invalid. -/
def Obligations.MissingPauseIsStructShort : Prop :=
  ∀ (s : State) (iv : List Micros) (b : Nat), DecodeReady iv s → FirstBurst s.cfgTol iv b → b + 1 = iv.length →
    ∃ t, exec .decode s = .next t ∧ t.mtype = .invalid ∧ t.res = (false, 0#24, .structShort) ∧ SameLast s t

/-! ## Validator and converter -/

/-- R120: the New branch of the structural validator, its three checks in order; no read is outside the list. -/
def Obligations.NewValidatorChecksInOrder : Prop :=
  ∀ (tol : Micros) (iv : List Micros) (s : Nat),
    (iv.length - s < 67 → validNew tol iv s = some (.fail .structShort)) ∧
    (67 ≤ iv.length - s → ∃ p t, iv[s + 1]? = some p ∧ iv[66]? = some t ∧
      (inNew tol p = false → validNew tol iv s = some (.fail .malformed)) ∧
      (inNew tol p = true → inShort tol t = false → validNew tol iv s = some (.fail .malformed)) ∧
      (inNew tol p = true → inShort tol t = true → validNew tol iv s = some .pass))

/-- R121: the Repeat branch of the structural validator, its three checks in order; no read is outside the list. (That no
DECODE consults it is part of `RepeatReturnsLastCode`, which has no premise on this branch.) -/
def Obligations.RepeatValidatorChecksInOrder : Prop :=
  ∀ (tol : Micros) (iv : List Micros) (s : Nat),
    (iv.length - s < 3 → validRep tol iv s = some (.fail .structShort)) ∧
    (3 ≤ iv.length - s → ∃ p t, iv[s + 1]? = some p ∧ iv[2]? = some t ∧
      (¬ |p - 2250| < 2250 * tol → validRep tol iv s = some (.fail .malformed)) ∧
      (|p - 2250| < 2250 * tol → inShort tol t = false → validRep tol iv s = some (.fail .malformed)) ∧
      (|p - 2250| < 2250 * tol → inShort tol t = true → validRep tol iv s = some .pass))

/-- R122: a nominal New frame after ONE interval outside `W_BURST`, at the default tolerance, is MALFORMED exactly when
its bit `b(31)` is 1. -/
def Obligations.TerminatorIndexIsAbsolute : Prop :=
  ∀ (s : State) (g : Micros) (p : Payload), s.cfgTol = 5 / 16 → inBurst (5 / 16) g = false →
    DecodeReady (g :: nominalFrame p) s →
    ∃ t, exec .decode s = .next t ∧ (t.resStatus = .malformed ↔ p.getLsbD 31 = true)

/-- R124, R225: intervals after a full New frame change nothing: the list and the list with more intervals after it
decode alike. -/
def Obligations.TrailingIntervalsAreIgnored : Prop :=
  ∀ (s : State) (iv extra : List Micros) (b : Nat) (longer : Memory),
    DecodeReady iv s → DecodeReady (iv ++ extra) { s with buffer := longer } →
    FirstBurst s.cfgTol iv b → PauseIsNew s.cfgTol iv b → 67 ≤ iv.length - b →
    ∃ t, exec .decode s = .next t ∧ exec .decode { s with buffer := longer } = .next { t with buffer := longer }

/-- R225: a nominal New frame cut in two by the collector, at the default tolerance: the first part is STRUCT_SHORT, the
second NO_LEADING_BURST. -/
def Obligations.SplitFrameIsNotDecoded : Prop :=
  ∀ (s s' : State) (p : Payload) (n : Nat), 1 ≤ n → n < 67 → s.cfgTol = 5 / 16 → s'.cfgTol = 5 / 16 →
    DecodeReady ((nominalFrame p).take n) s → DecodeReady ((nominalFrame p).drop n) s' →
    ∃ t t', exec .decode s = .next t ∧ t.res = (false, 0#24, .structShort) ∧
      exec .decode s' = .next t' ∧ t'.res = (false, 0#24, .noLeadingBurst)

/-- R130, R131: the converter answers for every list with 67 intervals from `s` on, and bit `k` of the payload is 0
exactly when `IV(s + 3 + 2k)` is in `W_SHORT`; a DECODE of a structurally valid New frame leaves those bits in PAYLOAD. -/
def Obligations.ConverterSamplesSecondElements : Prop :=
  (∀ (tol : Micros) (iv : List Micros) (s : Nat), 67 ≤ iv.length - s →
    ∃ w, convert tol iv s = some w ∧
      ∀ k < 32, ∃ v, iv[s + 3 + 2 * k]? = some v ∧ (w.getLsbD k = false ↔ |v - 1125 / 2| < 1125 / 2 * tol)) ∧
  (∀ (s : State) (iv : List Micros) (b : Nat), DecodeReady iv s → FirstBurst s.cfgTol iv b →
    PauseIsNew s.cfgTol iv b → CountAndTerminatorOk s.cfgTol iv b →
    ∃ t, exec .decode s = .next t ∧
      ∀ k < 32, ∃ v, iv[b + 3 + 2 * k]? = some v ∧
        (t.payload.getLsbD k = false ↔ |v - 1125 / 2| < 1125 / 2 * s.cfgTol))

/-! ## Complement checks and packer -/

/-- R140: complementary means that every bit differs. -/
def Obligations.ComplementMeansEveryBitDiffers : Prop :=
  ∀ x y : Byte, complementary x y = true ↔ ∀ i < 8, x.getLsbD i ≠ y.getLsbD i

/-- R144: the packer's word, and that the source's loop over a bit slice reconstructs the field it is taken from. -/
def Obligations.PackerReconstructsFields : Prop :=
  (∀ w : Payload, pack false w = (0#8 ++ w.extractLsb' 0 8 ++ w.extractLsb' 16 8 : BitVec 24)) ∧
  (∀ w : Payload, pack true w = (w.extractLsb' 0 16 ++ w.extractLsb' 16 8 : BitVec 24)) ∧
  (∀ (w : Payload) (i n : Nat), packLoop w i n 0 = (w.extractLsb' i n).toNat)

/-- R145, R66: the range of the standard values, and that both maxima are reached. -/
def Obligations.ResultRanges : Prop :=
  (∀ w : Payload, (pack false w).toNat ≤ 0xFFFF) ∧
  (∃ w : Payload, ChecksPass false w ∧ pack false w = 0x00FFFF#24) ∧
  (∃ w : Payload, ChecksPass true w ∧ pack true w = 0xFFFFFF#24)

/-- R66: the integer view is -1 exactly on an invalid outcome, and otherwise the value. -/
def Obligations.IntegerViewNeverCollides : Prop :=
  ∀ s : State, (integerView s = -1 ↔ s.resValid = false) ∧
    (s.resValid = true → integerView s = (s.resValue.toNat : Int))

/-- R67, R68, R27, R28: the codes; no reserved code is the code of anything, and `RES_VALID` goes with codes 1 and 2. -/
def Obligations.ReservedCodesAreNeverProduced : Prop :=
  (∀ e : Status, e.code.toNat ≤ 8) ∧ (∀ e e' : Status, e.code = e'.code → e = e') ∧
  (∀ e : Status, e.valid = true ↔ e.code = 1#4 ∨ e.code = 2#4) ∧
  (∀ f : Fsm, f.code ≠ 0b111#3) ∧ (∀ f f' : Fsm, f.code = f'.code → f = f') ∧
  (∀ m : MType, m.code ≠ 0b11#2) ∧ (∀ m m' : MType, m.code = m'.code → m = m')

/-! ## DECODE -/

/-- R201, R203: the outcome of every DECODE that the host may issue. Exactly one status, decided by the conditions of
R201 in the order of R203; every error leaves `(0, 0, code)`. -/
def Obligations.DecodeOutcomeTable : Prop :=
  ∀ (s : State) (iv : List Micros), DecodeReady iv s →
    ∃ t, exec .decode s = .next t ∧
      (t.resStatus = .noLeadingBurst ↔
        ∀ v ∈ iv, win s.cfgTol v Config.params.tBurst Config.params.tBurst = false) ∧
      (t.resStatus = .structShort ↔ ∃ b, FirstBurst s.cfgTol iv b ∧
        (iv.length ≤ b + 1 ∨ (PauseIsNew s.cfgTol iv b ∧ iv.length - b < 67))) ∧
      (t.resStatus = .unclassifiable ↔ ∃ b, FirstBurst s.cfgTol iv b ∧ PauseIsInvalid s.cfgTol iv b) ∧
      (t.resStatus = .okRepeat ↔
        ∃ b, FirstBurst s.cfgTol iv b ∧ PauseIsRepeat s.cfgTol iv b ∧ s.lastValid = true) ∧
      (t.resStatus = .repeatWithoutPrior ↔
        ∃ b, FirstBurst s.cfgTol iv b ∧ PauseIsRepeat s.cfgTol iv b ∧ s.lastValid = false) ∧
      (t.resStatus = .malformed ↔ ∃ b, FirstBurst s.cfgTol iv b ∧ PauseIsNew s.cfgTol iv b ∧
        67 ≤ iv.length - b ∧ ¬ CountAndTerminatorOk s.cfgTol iv b) ∧
      (t.resStatus = .redundancyMismatch ↔ ∃ b w, FirstBurst s.cfgTol iv b ∧ PauseIsNew s.cfgTol iv b ∧
        CountAndTerminatorOk s.cfgTol iv b ∧ PayloadAt s.cfgTol iv b w ∧ ¬ ChecksPass s.cfgExt w) ∧
      (t.resStatus = .okNew ↔ ∃ b w, FirstBurst s.cfgTol iv b ∧ PauseIsNew s.cfgTol iv b ∧
        CountAndTerminatorOk s.cfgTol iv b ∧ PayloadAt s.cfgTol iv b w ∧ ChecksPass s.cfgExt w) ∧
      t.resStatus ≠ .none ∧
      (t.resStatus ≠ .okNew → t.resStatus ≠ .okRepeat → t.resValid = false ∧ t.resValue = 0#24)

/-- R160: a New frame that passes every check is committed: the packed word is the result and the stored code. This is
the only write of `LAST_*` other than INIT's. -/
def Obligations.NewFrameIsCommitted : Prop :=
  (∀ (s : State) (iv : List Micros) (b : Nat) (w : Payload), DecodeReady iv s → FirstBurst s.cfgTol iv b →
    PauseIsNew s.cfgTol iv b → CountAndTerminatorOk s.cfgTol iv b → PayloadAt s.cfgTol iv b w →
    ChecksPass s.cfgExt w →
    ∃ t, exec .decode s = .next t ∧ t.res = (true, ResultWord s.cfgExt w, .okNew) ∧ t.lastValid = true ∧
      t.lastCode = ResultWord s.cfgExt w ∧ t.fsm = .idle ∧ DecodeFrame s t) ∧
  (∀ (i : Instr) (s t : State), exec i s = .next t →
    SameLast s t ∨ t.resStatus = .okNew ∨ (∃ ext tol, i = .init ext tol) ∧ t.lastValid = false)

/-- R156, R226: the Repeat path, whatever follows the pause. It writes neither `LAST_VALID` nor `LAST_CODE`. -/
def Obligations.RepeatReturnsLastCode : Prop :=
  ∀ (s : State) (iv : List Micros) (b : Nat), DecodeReady iv s → FirstBurst s.cfgTol iv b →
    PauseIsRepeat s.cfgTol iv b →
    ∃ t, exec .decode s = .next t ∧ SameLast s t ∧ t.mtype = .repeatMsg ∧ t.fsm = .idle ∧
      t.res = (if s.lastValid = true then (true, s.lastCode, .okRepeat) else (false, 0#24, .repeatWithoutPrior))

/-- R152: what `finish` writes, that it leaves `LAST_*` alone, and that every DECODE ends in IDLE with value 0 on every
path where `RES_VALID = 0`. -/
def Obligations.FinishEndsEveryDecode : Prop :=
  (∀ (valid : Bool) (value : Code) (status : Status) (s : State),
    (finish valid value status s).res = (valid, value, status) ∧ (finish valid value status s).fsm = .idle ∧
      SameLast s (finish valid value status s)) ∧
  (∀ (i : Instr) (s t : State), isDecodeForm i = true → exec i s = .next t →
    t.fsm = .idle ∧ t.resValid = t.resStatus.valid ∧ (t.resValid = false → t.resValue = 0#24))

/-- R202: a DECODE that ends in an error leaves `LAST_VALID`, `LAST_CODE`, the configuration and everything else but
`RES_*` and the scratch registers unchanged. -/
def Obligations.ErrorsKeepLastCodeAndConfiguration : Prop :=
  ∀ (i : Instr) (s t : State), isDecodeForm i = true → exec i s = .next t → t.resValid = false →
    SameLast s t ∧ SameConfig s t ∧ DecodeFrame s t

/-- The frame of DECODE and the three frame forms (R20, R47, R151). Besides `RES_*`, `FSM`, the scratch registers and, on
OK_NEW, `LAST_*`, nothing changes: the configuration, every element of the buffer, and all else. A Repeat frame leaves
PAYLOAD and BIT_K alone too. -/
def Obligations.DecodeFormsFrame : Prop :=
  (∀ (i : Instr) (s t : State), isDecodeForm i = true → exec i s = .next t →
    DecodeFrame s t ∧ (t.resStatus ≠ .okNew → SameLast s t)) ∧
  (∀ (start : Nat) (s t : State), exec (.frameRepeat start) s = .next t →
    t.payload = s.payload ∧ t.bitK = s.bitK)

/-- R163: a New frame decoded twice gives the same result, and leaves it in `LAST_CODE`. -/
def Obligations.NewDecodeIsIdempotent : Prop :=
  ∀ (s t : State) (iv : List Micros) (b : Nat), DecodeReady iv s → FirstBurst s.cfgTol iv b →
    PauseIsNew s.cfgTol iv b → exec .decode s = .next t →
    ∃ u, exec .decode t = .next u ∧ u.res = t.res ∧
      (t.resStatus = .okNew → t.lastValid = true ∧ t.lastCode = t.resValue ∧
        u.lastValid = true ∧ u.lastCode = t.resValue)

/-! ## The frame forms -/

/-- R120, R142, R144, R160 for FRAME_NEW_STD: it completes on every accepted DECODE. A short or malformed frame ends with
its status. In a valid one, under the standard protocol both complements are checked and the result is `{A, C}`; where
`CFG_EXT = 1` the same payload is read as an extended one (assumption 14). -/
def Obligations.StandardFrameCompletes : Prop :=
  ∀ (s : State) (iv : List Micros) (start : Nat) (a b c k : Byte), DecodeReady iv s →
    ∃ t, exec (.frameNewStd start a b c k) s = .next t ∧ DecodeFrame s t ∧ t.fsm = .idle ∧
      (iv.length - start < 67 → t.res = (false, 0#24, .structShort) ∧ SameLast s t) ∧
      (67 ≤ iv.length - start → ¬ (PauseIsNew s.cfgTol iv start ∧ CountAndTerminatorOk s.cfgTol iv start) →
        t.res = (false, 0#24, .malformed) ∧ SameLast s t) ∧
      (PauseIsNew s.cfgTol iv start → CountAndTerminatorOk s.cfgTol iv start →
        (s.cfgExt = false → a ^^^ b = 0xFF#8 → c ^^^ k = 0xFF#8 →
          t.res = (true, (0#8 ++ a ++ c : BitVec 24), .okNew) ∧ t.lastValid = true ∧
            t.lastCode = (0#8 ++ a ++ c : BitVec 24)) ∧
        (s.cfgExt = true → c ^^^ k = 0xFF#8 →
          t.res = (true, (b ++ a ++ c : BitVec 24), .okNew) ∧ t.lastValid = true ∧
            t.lastCode = (b ++ a ++ c : BitVec 24)) ∧
        (c ^^^ k ≠ 0xFF#8 ∨ (s.cfgExt = false ∧ a ^^^ b ≠ 0xFF#8) →
          t.res = (false, 0#24, .redundancyMismatch) ∧ SameLast s t))

/-- R120, R143, R144, R160 for FRAME_NEW_EXT: it completes on every accepted DECODE. A short or malformed frame ends with
its status. In a valid one, under the extended protocol there is no address check and the result is `{E, C}`; where
`CFG_EXT = 0` the low 16 bits are checked as address and inverse (assumption 14). -/
def Obligations.ExtendedFrameCompletes : Prop :=
  ∀ (s : State) (iv : List Micros) (start : Nat) (e : BitVec 16) (c k : Byte), DecodeReady iv s →
    ∃ t, exec (.frameNewExt start e c k) s = .next t ∧ DecodeFrame s t ∧ t.fsm = .idle ∧
      (iv.length - start < 67 → t.res = (false, 0#24, .structShort) ∧ SameLast s t) ∧
      (67 ≤ iv.length - start → ¬ (PauseIsNew s.cfgTol iv start ∧ CountAndTerminatorOk s.cfgTol iv start) →
        t.res = (false, 0#24, .malformed) ∧ SameLast s t) ∧
      (PauseIsNew s.cfgTol iv start → CountAndTerminatorOk s.cfgTol iv start →
        (s.cfgExt = true → c ^^^ k = 0xFF#8 →
          t.res = (true, (e ++ c : BitVec 24), .okNew) ∧ t.lastValid = true ∧ t.lastCode = (e ++ c : BitVec 24)) ∧
        (s.cfgExt = false → c ^^^ k = 0xFF#8 → e.extractLsb' 0 8 ^^^ e.extractLsb' 8 8 = 0xFF#8 →
          t.res = (true, (0#8 ++ e.extractLsb' 0 8 ++ c : BitVec 24), .okNew) ∧ t.lastValid = true ∧
            t.lastCode = (0#8 ++ e.extractLsb' 0 8 ++ c : BitVec 24)) ∧
        (c ^^^ k ≠ 0xFF#8 ∨ (s.cfgExt = false ∧ e.extractLsb' 0 8 ^^^ e.extractLsb' 8 8 ≠ 0xFF#8) →
          t.res = (false, 0#24, .redundancyMismatch) ∧ SameLast s t))

/-- R156 for FRAME_REPEAT: it completes on every accepted DECODE. -/
def Obligations.RepeatFrameCompletes : Prop :=
  ∀ (s : State) (iv : List Micros) (start : Nat), DecodeReady iv s →
    ∃ t, exec (.frameRepeat start) s = .next t ∧ DecodeFrame s t ∧ SameLast s t ∧ t.fsm = .idle ∧
      (s.lastValid = true → t.res = (true, s.lastCode, .okRepeat)) ∧
      (s.lastValid = false → t.res = (false, 0#24, .repeatWithoutPrior))

/-- R72, R151: in EVERY state, the instruction that a DECODE command decodes to has the effect of R151: executing the
frame form found in the buffer and executing DECODE are the same, register by register. -/
def Obligations.FrameFormsAreDecode : Prop :=
  ∀ (s : State) (c : Command), c.cmd = 0#1 →
    exec (decode s.cfgExt s.cfgTol c s.buffer) s = exec .decode s

/-! ## The state machine and the host -/

/-- R161: from IDLE with a DECODE command, the micro-steps of R153 to R160 end, within `N + 36` steps after IDLE's, with
exactly the outcome of R151, and with the scratch registers of the model's DECODE (assumptions 9 and 13).
IDLE then holds, so running the full bound reaches it. -/
def Obligations.MicroStepsRealiseDecode : Prop :=
  ∀ s : State, s.fsm = .idle → s.host = [] →
    Host.Core.run core (s.buffer.length + 36) (beginDecode s) = exec .decode s

/-- R153: IDLE starts a scan on a DECODE command, and holds with no command. -/
def Obligations.IdleHoldsWithoutCommand : Prop :=
  (∀ s : State, s.fsm = .idle → s.host = [] → step s = .next s) ∧
  (∀ s : State, (beginDecode s).scanI = 0 ∧ (beginDecode s).fsm = .locate)

/-- R162: while `FSM != IDLE`, every command and every change of the buffer is refused. -/
def Obligations.HostMovesWhileBusyAreRefused : Prop :=
  ∀ s : State, s.fsm ≠ .idle →
    (∀ i : Instr, exec i s = .refused .hostMoveWhileBusy) ∧
    (∀ (c : Command) (rest : List HostMove), s.host = .command c :: rest →
      step s = .refused .hostMoveWhileBusy) ∧
    (∀ (iv : Memory) (rest : List HostMove), s.host = .fillBuffer iv :: rest →
      step s = .refused .hostMoveWhileBusy)

/-- R212: the four moves outside the contract are refused, in every form of DECODE, each under a name of its own.
Which name is given where several items hold at once is the model's choice (assumption 12). -/
def Obligations.ContractBreachesAreRefused : Prop :=
  ∀ (i : Instr) (s : State), isDecodeForm i = true →
    (s.fsm = .idle → s.ready = true → s.maxLen < s.buffer.length → exec i s = .refused .listTooLong) ∧
    (s.fsm = .idle → s.ready = true → s.buffer.length ≤ s.maxLen →
      (∃ x ∈ s.buffer, x = .nan ∨ (∃ neg, x = .inf neg) ∨ ∃ q < 0, x = .us q) →
      exec i s = .refused .intervalOutOfDomain) ∧
    (s.fsm ≠ .idle → exec i s = .refused .hostMoveWhileBusy) ∧
    (s.fsm = .idle → s.ready = false → exec i s = .refused .decodeBeforeReset)

/-- R7, R49: a command that the host issues is decoded under the block's configuration and executed as one step, with the
command taken off the host's list. The other moves are taken likewise. -/
def Obligations.StepRunsTheDecodedCommand : Prop :=
  (∀ (s : State) (c : Command) (rest : List HostMove) (i : Instr), s.host = .command c :: rest →
    decode s.cfgExt s.cfgTol c s.buffer = i → step s = exec i { s with host := rest }) ∧
  (∀ (s : State) (iv : Memory) (rest : List HostMove), s.host = .fillBuffer iv :: rest → s.fsm = .idle →
    step s = .next { s with host := rest, buffer := iv })

/-- The invariant holds right after power-on reset. -/
def Obligations.ResetMeetsInvariant : Prop := State.reset.Inv

/-- R24, R26, R42, R43: from EVERY state that meets the invariant, a step never faults and keeps the invariant. -/
def Obligations.StepIsSafe : Prop := ∀ s : State, s.Inv → Safe (step s)

/-- R42: a stage function never reads outside the list in a DECODE: DECODE and the frame forms never fault, in any
state. -/
def Obligations.InstructionsNeverFault : Prop :=
  ∀ (i : Instr) (s : State) (f : Fault), exec i s ≠ .fault f

/-! ## What cannot be observed -/

/-- R221: the unspecified registers are never observed. Two idle blocks that agree on the specified registers answer
every move of the host alike, and agree on the specified registers afterwards. -/
def Obligations.UnspecifiedRegistersAreNeverObserved : Prop :=
  ∀ s t : State, SameSpecified s t → SameOutcome SameSpecified (step s) (step t)

/-- R25: no command but one that ends OK_REPEAT shows the host anything of `LAST_CODE`. -/
def Obligations.LastCodeShownOnlyByRepeat : Prop :=
  ∀ (i : Instr) (s : State) (x : Code),
    SameOutcome (fun t u => hostView t = hostView u ∨ (t.resStatus = .okRepeat ∧ u.resStatus = .okRepeat))
      (exec i s) (exec i { s with lastCode := x })

/-- R42: elements of the buffer that a DECODE does not read do not matter: with another value there, it does the
same. -/
def Obligations.UnreadElementsDoNotMatter : Prop :=
  ∀ (s : State) (iv iv' : List Micros) (other : Memory), DecodeReady iv s →
    DecodeReady iv' { s with buffer := other } → iv.length = iv'.length →
    (∀ i, Reads s.cfgTol iv i → iv[i]? = iv'[i]?) →
    ∃ t, exec .decode s = .next t ∧ exec .decode { s with buffer := other } = .next { t with buffer := other }

/-! ## Encoding -/

/-- R71, R63, R9: the synthetic nominal frame, element by element, and the payload words of `NEC(addr, cmd)`. -/
def Obligations.NominalFrameLayout : Prop :=
  (∀ p : Payload, (nominalFrame p).length = 67 ∧ (nominalFrame p)[0]? = some 9000 ∧
    (nominalFrame p)[1]? = some 4500 ∧ (nominalFrame p)[66]? = some (1125 / 2) ∧
    ∀ k < 32, (nominalFrame p)[2 + 2 * k]? = some (1125 / 2) ∧
      (nominalFrame p)[3 + 2 * k]? = some (if p.getLsbD k = true then 3375 / 2 else 1125 / 2)) ∧
  (∀ a c : Byte, necStd a c = nominalFrame
    (a.setWidth 32 ||| ((~~~a).setWidth 32 <<< 8) ||| (c.setWidth 32 <<< 16) ||| ((~~~c).setWidth 32 <<< 24))) ∧
  (∀ (a : BitVec 16) (c : Byte), necExt a c = nominalFrame
    (a.setWidth 32 ||| (c.setWidth 32 <<< 16) ||| ((~~~c).setWidth 32 <<< 24)))

/-- For every instruction, at every operand and frame index, and every tolerance above 0 and up to 1/2, decoding its
encoding under the matching protocol gives it back. (The frames' 1687.5 is presumed: assumption 15.) -/
def Obligations.DecodeEncodeRoundTrip : Prop :=
  ∀ (i : Instr) (ext : Bool) (tol : Micros), 0 < tol → tol ≤ 1 / 2 →
    (∀ start a b c k, i = .frameNewStd start a b c k → ext = false) →
    (∀ start e c k, i = .frameNewExt start e c k → ext = true) →
    decode ext tol (encode i).1 (encode i).2 = i

/-- R60, R65, R72: the command bit, the pause and `CFG_EXT` alone select the row: a New pause is a New frame of the
variant `CFG_EXT` selects, whatever else the list holds; a Repeat pause is FRAME_REPEAT. Where no burst, no pause or a
pause in neither window stands, no frame row is selected, and the row is DECODE (assumption 6). -/
def Obligations.PauseAndConfigurationSelectTheRow : Prop :=
  (∀ (ext : Bool) (tol : Micros) (c : Command) (m : Memory), c.cmd = 1#1 →
    decode ext tol c m = .init (c.ext == 1#1) c.tol) ∧
  (∀ (ext : Bool) (tol : Micros) (c : Command) (m : Memory) (iv : List Micros), c.cmd = 0#1 →
    durations m = some iv →
    ((∀ v ∈ iv, win tol v Config.params.tBurst Config.params.tBurst = false) → decode ext tol c m = .decode) ∧
    ∀ b, FirstBurst tol iv b →
      (PauseIsNew tol iv b → ext = false → ∃ a b' c' k, decode ext tol c m = .frameNewStd b a b' c' k) ∧
      (PauseIsNew tol iv b → ext = true → ∃ e c' k, decode ext tol c m = .frameNewExt b e c' k) ∧
      (PauseIsRepeat tol iv b → decode ext tol c m = .frameRepeat b) ∧
      (PauseIsInvalid tol iv b ∨ iv.length = b + 1 → decode ext tol c m = .decode))

/-- R60, R72: the command bit, the pause and `CFG_EXT` select the row, on words and lists written out from the rules. -/
def Obligations.TableWordsDecode : Prop :=
  decodeTableWord 8 1 = some (.init false 0) ∧ decodeTableWord 8 0 = some .decode ∧
  decodeTableWord 8 2 = none ∧
  decodeTableWord 32 0x52ADFF00 = some (.frameNewStd 0 0x00#8 0xFF#8 0xAD#8 0x52#8) ∧
  decode true (5 / 16) decodeCommand ((nominalFrame 0x52ADC001#32).map .us) =
    .frameNewExt 0 0xC001#16 0xAD#8 0x52#8 ∧
  decode false (5 / 16) decodeCommand [.us 20000, .us 9000, .us 3000] = .frameRepeat 1

/-- R71, R144: DECODE of the nominal frame of every address and command returns it, at every tolerance above 0 and up to
2, in both protocols. -/
def Obligations.NominalFrameRoundTrip : Prop :=
  (∀ (s : State) (a c : Byte), DecodeReady (necStd a c) s → s.cfgExt = false → 0 < s.cfgTol → s.cfgTol ≤ 2 →
    ∃ t, exec .decode s = .next t ∧ t.res = (true, (0#8 ++ a ++ c : BitVec 24), .okNew) ∧ t.lastValid = true ∧
      t.lastCode = (0#8 ++ a ++ c : BitVec 24)) ∧
  (∀ (s : State) (a : BitVec 16) (c : Byte), DecodeReady (necExt a c) s → s.cfgExt = true → 0 < s.cfgTol →
    s.cfgTol ≤ 2 →
    ∃ t, exec .decode s = .next t ∧ t.res = (true, (a ++ c : BitVec 24), .okNew) ∧ t.lastValid = true ∧
      t.lastCode = (a ++ c : BitVec 24))

/-- R105 with the premises of 90_conflicts.md C6: at the default tolerance, a nominal New or Repeat frame scaled by any
factor strictly between 11/16 and 21/16 decodes as the unscaled frame does. -/
def Obligations.NominalFramesAreScaleInvariant : Prop :=
  ∀ (s : State) (f : Micros) (frame : List Micros) (scaled : Memory),
    (frame = repeatFrame ∨ ∃ p, frame = nominalFrame p) → s.cfgTol = 5 / 16 → 11 / 16 < f → f < 21 / 16 →
    DecodeReady frame s → DecodeReady (frame.map (f * ·)) { s with buffer := scaled } →
    ∃ t, exec .decode s = .next t ∧ exec .decode { s with buffer := scaled } = .next { t with buffer := scaled }
end

