-- ==== Sys2Proof/Laws/Operands.lean ====
section
/-! SUPPORT. What the operand functions answer: the comparator, the buffer's durations, the locator, the classifier, the
validator and the converter. Later proofs cite these and do not unfold the functions. -/

namespace Sys2Proof

/-! ## Parameters -/

@[simp] theorem params_tBurst : Config.params.tBurst = 9000 := rfl
@[simp] theorem params_tPauseNew : Config.params.tPauseNew = 4500 := rfl
@[simp] theorem params_tPauseRep : Config.params.tPauseRep = 2250 := rfl
@[simp] theorem params_tShort : Config.params.tShort = 1125 / 2 := rfl
@[simp] theorem params_nNew : Config.params.nNew = 67 := rfl
@[simp] theorem params_nRep : Config.params.nRep = 3 := rfl
@[simp] theorem params_firstBitOfs : Config.params.firstBitOfs = 2 := rfl
@[simp] theorem params_nBits : Config.params.nBits = 32 := rfl
@[simp] theorem params_idxTermNew : Config.params.idxTermNew = 66 := rfl
@[simp] theorem params_idxTermRep : Config.params.idxTermRep = 2 := rfl
@[simp] theorem params_tolDefault : Config.params.tolDefault = 5 / 16 := rfl
@[simp] theorem params_extDefault : Config.params.extDefault = false := rfl
@[simp] theorem params_minMaxLen : Config.params.minMaxLen = 67 := rfl
@[simp] theorem sampleIndex_eq (s k : Nat) : sampleIndex s k = s + 3 + 2 * k := rfl

/-! ## The comparator -/

theorem win_eq_true {tol v r b : Micros} : win tol v r b = true ↔ |v - r| < b * tol := by simp [win]

theorem win_eq_false {tol v r b : Micros} : win tol v r b = false ↔ b * tol ≤ |v - r| := by simp [win]

/-! ## The durations of a buffer -/

theorem durations_length {m : List Interval} {iv : List Micros} (h : durations m = some iv) :
    iv.length = m.length := by
  induction m generalizing iv with
  | nil => simp [durations] at h; simp [← h]
  | cons x xs ih =>
    unfold durations at h
    split at h
    · next qs hq => simp at h; subst h; simp [ih hq]
    · simp at h

theorem durations_us {l : List Micros} (h : ∀ q ∈ l, 0 ≤ q) : durations (l.map .us) = some l := by
  induction l with
  | nil => rfl
  | cons q qs ih =>
    have hq : ¬ q < 0 := not_lt.mpr (h q (by simp))
    simp [durations, Interval.duration, hq, ih fun x hx => h x (by simp [hx])]

theorem durations_eq_none {m : List Interval} :
    durations m = none ↔ ∃ x ∈ m, x.duration = none := by
  induction m with
  | nil => simp [durations]
  | cons x xs ih =>
    unfold durations
    cases hx : x.duration with
    | none => simp [hx]
    | some q =>
      cases hd : durations xs with
      | none => simpa [hx] using ih.mp hd
      | some qs => simpa [hx, hd] using ih

theorem duration_eq_none {x : Interval} :
    x.duration = none ↔ x = .nan ∨ (∃ neg, x = .inf neg) ∨ ∃ q < 0, x = .us q := by
  cases x with
  | us q => by_cases h : q < 0 <;> simp [Interval.duration, h]
  | nan => simp [Interval.duration]
  | inf n => simp [Interval.duration]

/-! ## The locator -/

theorem firstBurst_cons_zero {tol v : Micros} {vs : List Micros} :
    FirstBurst tol (v :: vs) 0 ↔ inBurst tol v = true := by
  simp [FirstBurst, inBurst]

theorem firstBurst_cons_succ {tol v : Micros} {vs : List Micros} {n : Nat} :
    FirstBurst tol (v :: vs) (n + 1) ↔ inBurst tol v = false ∧ FirstBurst tol vs n := by
  constructor
  · rintro ⟨h1, h2⟩
    refine ⟨h2 0 (by omega) v rfl, by simpa using h1, fun j hj u hu => h2 (j + 1) (by omega) u (by simpa using hu)⟩
  · rintro ⟨h0, h1, h2⟩
    refine ⟨by simpa using h1, fun j hj u hu => ?_⟩
    cases j with
    | zero => simp at hu; subst hu; exact h0
    | succ j => exact h2 j (by omega) u (by simpa using hu)

/-- The locator's loop, from index `i` on, answers the first element in `W_BURST`. -/
theorem locateFrom_eq_some {tol : Micros} {iv : List Micros} {i b : Nat} :
    locateFrom tol iv i = some b ↔ i ≤ b ∧ FirstBurst tol iv (b - i) := by
  induction iv generalizing i with
  | nil => simp [locateFrom, FirstBurst]
  | cons v vs ih =>
    unfold locateFrom
    by_cases hv : inBurst tol v = true
    · simp only [hv, if_true, Option.some.injEq]
      constructor
      · rintro rfl; simpa [firstBurst_cons_zero] using hv
      · rintro ⟨hle, hf⟩
        obtain ⟨n, rfl⟩ := Nat.exists_eq_add_of_le hle
        cases n with
        | zero => rfl
        | succ n => simp [firstBurst_cons_succ, hv] at hf
    · have hv' : inBurst tol v = false := by simpa using hv
      simp only [hv', Bool.false_eq_true, if_false, ih]
      constructor
      · rintro ⟨hle, hf⟩
        obtain ⟨n, rfl⟩ := Nat.exists_eq_add_of_le hle
        have e : i + 1 + n - i = n + 1 := by omega
        have e' : i + 1 + n - (i + 1) = n := by omega
        rw [e'] at hf
        rw [e, firstBurst_cons_succ]
        exact ⟨by omega, hv', hf⟩
      · rintro ⟨hle, hf⟩
        obtain ⟨n, rfl⟩ := Nat.exists_eq_add_of_le hle
        have e : i + n - i = n := by omega
        rw [e] at hf
        cases n with
        | zero => rw [firstBurst_cons_zero, hv'] at hf; simp at hf
        | succ n =>
          have e' : i + (n + 1) - (i + 1) = n := by omega
          rw [e']
          exact ⟨by omega, (firstBurst_cons_succ.mp hf).2⟩

/-- The locator's loop answers nothing exactly when nothing is in `W_BURST`. -/
theorem locateFrom_eq_none {tol : Micros} {iv : List Micros} {i : Nat} :
    locateFrom tol iv i = none ↔ ∀ v ∈ iv, inBurst tol v = false := by
  induction iv generalizing i with
  | nil => simp [locateFrom]
  | cons v vs ih =>
    unfold locateFrom
    by_cases hv : inBurst tol v = true
    · simp [hv]
    · simp [hv, ih]

theorem locate_eq_some {tol : Micros} {iv : List Micros} {b : Nat} (h : locate tol iv = some b) :
    FirstBurst tol iv b := by
  simpa using (locateFrom_eq_some.mp h).2

theorem FirstBurst.locate {tol : Micros} {iv : List Micros} {b : Nat} (h : FirstBurst tol iv b) :
    Sys2Proof.locate tol iv = some b :=
  locateFrom_eq_some.mpr ⟨Nat.zero_le b, by simpa using h⟩

theorem FirstBurst.lt_length {tol : Micros} {iv : List Micros} {b : Nat} (h : FirstBurst tol iv b) :
    b < iv.length := by
  obtain ⟨⟨v, hv, -⟩, -⟩ := h
  exact (List.getElem?_eq_some_iff.mp hv).1

/-! ## The classifier -/

theorem classify_eq {tol p : Micros} :
    classify tol p = if inNew tol p = true then .newMsg else if inRepCls tol p = true then .repeatMsg else .invalid := rfl

theorem PauseIsNew.classify {tol : Micros} {iv : List Micros} {b : Nat} (h : PauseIsNew tol iv b) :
    ∃ p, iv[b + 1]? = some p ∧ inNew tol p = true ∧ Sys2Proof.classify tol p = .newMsg := by
  obtain ⟨p, hp, hn⟩ := h
  have hn' : inNew tol p = true := hn
  exact ⟨p, hp, hn, by simp [classify_eq, hn']⟩

theorem PauseIsRepeat.classify {tol : Micros} {iv : List Micros} {b : Nat} (h : PauseIsRepeat tol iv b) :
    ∃ p, iv[b + 1]? = some p ∧ Sys2Proof.classify tol p = .repeatMsg := by
  obtain ⟨p, hp, hn, hr⟩ := h
  have hn' : inNew tol p = false := hn
  have hr' : inRepCls tol p = true := hr
  exact ⟨p, hp, by simp [classify_eq, hn', hr']⟩

theorem PauseIsInvalid.classify {tol : Micros} {iv : List Micros} {b : Nat} (h : PauseIsInvalid tol iv b) :
    ∃ p, iv[b + 1]? = some p ∧ Sys2Proof.classify tol p = .invalid := by
  obtain ⟨p, hp, hn, hr⟩ := h
  have hn' : inNew tol p = false := hn
  have hr' : inRepCls tol p = false := hr
  exact ⟨p, hp, by simp [classify_eq, hn', hr']⟩

/-- The three classes are those of the three predicates on the pause. -/
theorem pause_of_classify {tol p : Micros} {iv : List Micros} {b : Nat} (hp : iv[b + 1]? = some p) :
    (classify tol p = .newMsg → PauseIsNew tol iv b) ∧ (classify tol p = .repeatMsg → PauseIsRepeat tol iv b) ∧
      (classify tol p = .invalid → PauseIsInvalid tol iv b) := by
  unfold classify
  split
  · next h => exact ⟨fun _ => ⟨p, hp, h⟩, fun h => by simp at h, fun h => by simp at h⟩
  · next h =>
    have h : inNew tol p = false := by simpa using h
    split
    · next h' => exact ⟨fun h => by simp at h, fun _ => ⟨p, hp, h, h'⟩, fun h => by simp at h⟩
    · next h' =>
      have h' : inRepCls tol p = false := by simpa using h'
      exact ⟨fun h => by simp at h, fun h => by simp at h, fun _ => ⟨p, hp, h, h'⟩⟩

/-! ## The structural validator -/

theorem validNew_short {tol : Micros} {iv : List Micros} {s : Nat} (h : iv.length - s < 67) :
    validNew tol iv s = some (.fail .structShort) := by
  simp [validNew, h]

/-- With a full count both reads are in range, and the windows decide. -/
theorem validNew_full {tol : Micros} {iv : List Micros} {s : Nat} (h : 67 ≤ iv.length - s) :
    ∃ p t, iv[s + 1]? = some p ∧ iv[66]? = some t ∧ validNew tol iv s =
      some (if inNew tol p then (if inShort tol t then .pass else .fail .malformed) else .fail .malformed) := by
  have h1 : s + 1 < iv.length := by omega
  have h66 : 66 < iv.length := by omega
  refine ⟨iv[s + 1], iv[66], by simp [h1], by simp [h66], ?_⟩
  simp [validNew, Nat.not_lt.mpr h, h1, h66]

theorem validNew_ne_none {tol : Micros} {iv : List Micros} {s : Nat} : validNew tol iv s ≠ none := by
  by_cases h : iv.length - s < 67
  · simp [validNew_short h]
  · obtain ⟨p, t, -, -, e⟩ := validNew_full (tol := tol) (Nat.not_lt.mp h)
    simp [e]

theorem validNew_pass {tol : Micros} {iv : List Micros} {s : Nat} (h : validNew tol iv s = some .pass) :
    67 ≤ iv.length - s := by
  by_contra hc
  simp [validNew_short (Nat.not_le.mp hc)] at h

/-! ## The converter -/

theorem setBit_getLsbD {p : Payload} {k : Nat} {b : Bool} (hk : k < 32) (j : Nat) :
    (setBit p k b).getLsbD j = if j = k then b else p.getLsbD j := by
  by_cases hj : j < 32
  · unfold setBit
    by_cases e : j = k
    · subst e; cases b <;> simp [hj]
    · have : j < k ∨ k < j := by omega
      rcases this with hlt | hlt
      · cases b <;> simp [hj, e, hlt]
      · have h1 : ¬ j < k := by omega
        have h2 : j - k ≠ 0 := by omega
        cases b <;> simp [hj, e, h1, h2]
  · have e : j ≠ k := by omega
    simp [e, BitVec.getLsbD_of_ge _ _ (Nat.le_of_not_lt hj)]

/-- After `n` rounds the first `n` bits are the samples', and the others 0. -/
theorem convertUpTo_spec {tol : Micros} {iv : List Micros} {s n : Nat} (hn : n ≤ 32)
    (h : ∀ k < n, s + 3 + 2 * k < iv.length) :
    ∃ w, convertUpTo tol iv s n = some w ∧
      (∀ k < n, ∃ v, iv[s + 3 + 2 * k]? = some v ∧ w.getLsbD k = sampleBit tol v) ∧
      ∀ k, n ≤ k → w.getLsbD k = false := by
  induction n with
  | zero => exact ⟨0#32, rfl, by simp, by simp⟩
  | succ n ih =>
    obtain ⟨w, hw, h1, h2⟩ := ih (by omega) fun k hk => h k (by omega)
    have hl := h n (by omega)
    refine ⟨setBit w n (sampleBit tol iv[s + 3 + 2 * n]), by simp [convertUpTo, hw, hl], fun k hk => ?_, fun k hk => ?_⟩
    · by_cases e : k = n
      · subst e; exact ⟨iv[s + 3 + 2 * k], by simp [hl], by simp [setBit_getLsbD (show k < 32 by omega)]⟩
      · obtain ⟨v, hv, hb⟩ := h1 k (by omega)
        exact ⟨v, hv, by simp [setBit_getLsbD (show n < 32 by omega), e, hb]⟩
    · have e : k ≠ n := by omega
      simp [setBit_getLsbD (show n < 32 by omega), e, h2 k (by omega)]

/-- With 67 intervals from `s` on, the converter answers the payload of the frame at `s`. -/
theorem convert_spec {tol : Micros} {iv : List Micros} {s : Nat} (h : 67 ≤ iv.length - s) :
    ∃ w, convert tol iv s = some w ∧ PayloadAt tol iv s w := by
  obtain ⟨w, hw, h1, -⟩ := convertUpTo_spec (tol := tol) (iv := iv) (s := s) (n := 32) le_rfl
    fun k hk => by omega
  exact ⟨w, hw, h1⟩

/-- A frame has one payload. -/
theorem PayloadAt.unique {tol : Micros} {iv : List Micros} {s : Nat} {w w' : Payload} (h : PayloadAt tol iv s w)
    (h' : PayloadAt tol iv s w') : w = w' := by
  apply BitVec.eq_of_getLsbD_eq
  intro k hk
  obtain ⟨v, hv, e⟩ := h k hk
  obtain ⟨v', hv', e'⟩ := h' k hk
  rw [hv] at hv'
  simp only [Option.some.injEq] at hv'
  rw [e, e', hv']

theorem PayloadAt.convert {tol : Micros} {iv : List Micros} {s : Nat} {w : Payload} (h : PayloadAt tol iv s w)
    (hn : 67 ≤ iv.length - s) : Sys2Proof.convert tol iv s = some w := by
  obtain ⟨w', hw, h'⟩ := convert_spec (tol := tol) hn
  rw [hw, h.unique h']

end Sys2Proof
end

