-- ==== Sys2Proof/Laws/State.lean ====
section
/-! SUPPORT. One lemma per field and shared update, true by `rfl`, so that no proof unfolds a record update. -/

namespace Sys2Proof.Machine

variable (s : State) (v : Bool) (x : Code) (e : Status) (b : Nat) (w : Payload) (tol : Micros)

/-! ## `finish` -/

@[simp] theorem finish_cfgExt : (finish v x e s).cfgExt = s.cfgExt := rfl
@[simp] theorem finish_cfgTol : (finish v x e s).cfgTol = s.cfgTol := rfl
@[simp] theorem finish_lastValid : (finish v x e s).lastValid = s.lastValid := rfl
@[simp] theorem finish_lastCode : (finish v x e s).lastCode = s.lastCode := rfl
@[simp] theorem finish_resValid : (finish v x e s).resValid = v := rfl
@[simp] theorem finish_resValue : (finish v x e s).resValue = x := rfl
@[simp] theorem finish_resStatus : (finish v x e s).resStatus = e := rfl
@[simp] theorem finish_fsm : (finish v x e s).fsm = .idle := rfl
@[simp] theorem finish_scanI : (finish v x e s).scanI = s.scanI := rfl
@[simp] theorem finish_start : (finish v x e s).start = s.start := rfl
@[simp] theorem finish_mtype : (finish v x e s).mtype = s.mtype := rfl
@[simp] theorem finish_bitK : (finish v x e s).bitK = s.bitK := rfl
@[simp] theorem finish_payload : (finish v x e s).payload = s.payload := rfl
@[simp] theorem finish_buffer : (finish v x e s).buffer = s.buffer := rfl
@[simp] theorem finish_maxLen : (finish v x e s).maxLen = s.maxLen := rfl
@[simp] theorem finish_host : (finish v x e s).host = s.host := rfl
@[simp] theorem finish_ready : (finish v x e s).ready = s.ready := rfl
@[simp] theorem finish_draws : (finish v x e s).draws = s.draws := rfl

/-! ## `failWith` -/

@[simp] theorem failWith_cfgExt : (failWith e s).cfgExt = s.cfgExt := rfl
@[simp] theorem failWith_cfgTol : (failWith e s).cfgTol = s.cfgTol := rfl
@[simp] theorem failWith_lastValid : (failWith e s).lastValid = s.lastValid := rfl
@[simp] theorem failWith_lastCode : (failWith e s).lastCode = s.lastCode := rfl
@[simp] theorem failWith_resValid : (failWith e s).resValid = false := rfl
@[simp] theorem failWith_resValue : (failWith e s).resValue = 0#24 := rfl
@[simp] theorem failWith_resStatus : (failWith e s).resStatus = e := rfl
@[simp] theorem failWith_fsm : (failWith e s).fsm = .idle := rfl
@[simp] theorem failWith_scanI : (failWith e s).scanI = s.scanI := rfl
@[simp] theorem failWith_start : (failWith e s).start = s.start := rfl
@[simp] theorem failWith_mtype : (failWith e s).mtype = s.mtype := rfl
@[simp] theorem failWith_bitK : (failWith e s).bitK = s.bitK := rfl
@[simp] theorem failWith_payload : (failWith e s).payload = s.payload := rfl
@[simp] theorem failWith_buffer : (failWith e s).buffer = s.buffer := rfl
@[simp] theorem failWith_maxLen : (failWith e s).maxLen = s.maxLen := rfl
@[simp] theorem failWith_host : (failWith e s).host = s.host := rfl
@[simp] theorem failWith_ready : (failWith e s).ready = s.ready := rfl
@[simp] theorem failWith_draws : (failWith e s).draws = s.draws := rfl

/-! ## `commitPayload` -/

@[simp] theorem commitPayload_cfgExt : (commitPayload s).cfgExt = s.cfgExt := rfl
@[simp] theorem commitPayload_cfgTol : (commitPayload s).cfgTol = s.cfgTol := rfl
@[simp] theorem commitPayload_lastValid : (commitPayload s).lastValid = true := rfl
@[simp] theorem commitPayload_lastCode : (commitPayload s).lastCode = pack s.cfgExt s.payload := rfl
@[simp] theorem commitPayload_resValid : (commitPayload s).resValid = true := rfl
@[simp] theorem commitPayload_resValue : (commitPayload s).resValue = pack s.cfgExt s.payload := rfl
@[simp] theorem commitPayload_resStatus : (commitPayload s).resStatus = .okNew := rfl
@[simp] theorem commitPayload_fsm : (commitPayload s).fsm = .idle := rfl
@[simp] theorem commitPayload_scanI : (commitPayload s).scanI = s.scanI := rfl
@[simp] theorem commitPayload_start : (commitPayload s).start = s.start := rfl
@[simp] theorem commitPayload_mtype : (commitPayload s).mtype = s.mtype := rfl
@[simp] theorem commitPayload_bitK : (commitPayload s).bitK = s.bitK := rfl
@[simp] theorem commitPayload_payload : (commitPayload s).payload = s.payload := rfl
@[simp] theorem commitPayload_buffer : (commitPayload s).buffer = s.buffer := rfl
@[simp] theorem commitPayload_maxLen : (commitPayload s).maxLen = s.maxLen := rfl
@[simp] theorem commitPayload_host : (commitPayload s).host = s.host := rfl
@[simp] theorem commitPayload_ready : (commitPayload s).ready = s.ready := rfl
@[simp] theorem commitPayload_draws : (commitPayload s).draws = s.draws := rfl

/-! ## `newFrameScratch` -/

@[simp] theorem newFrameScratch_cfgExt : (newFrameScratch b w s).cfgExt = s.cfgExt := rfl
@[simp] theorem newFrameScratch_cfgTol : (newFrameScratch b w s).cfgTol = s.cfgTol := rfl
@[simp] theorem newFrameScratch_lastValid : (newFrameScratch b w s).lastValid = s.lastValid := rfl
@[simp] theorem newFrameScratch_lastCode : (newFrameScratch b w s).lastCode = s.lastCode := rfl
@[simp] theorem newFrameScratch_resValid : (newFrameScratch b w s).resValid = s.resValid := rfl
@[simp] theorem newFrameScratch_resValue : (newFrameScratch b w s).resValue = s.resValue := rfl
@[simp] theorem newFrameScratch_resStatus : (newFrameScratch b w s).resStatus = s.resStatus := rfl
@[simp] theorem newFrameScratch_fsm : (newFrameScratch b w s).fsm = s.fsm := rfl
@[simp] theorem newFrameScratch_scanI : (newFrameScratch b w s).scanI = b := rfl
@[simp] theorem newFrameScratch_start : (newFrameScratch b w s).start = b := rfl
@[simp] theorem newFrameScratch_mtype : (newFrameScratch b w s).mtype = .newMsg := rfl
@[simp] theorem newFrameScratch_bitK : (newFrameScratch b w s).bitK = 32#6 := rfl
@[simp] theorem newFrameScratch_payload : (newFrameScratch b w s).payload = w := rfl
@[simp] theorem newFrameScratch_buffer : (newFrameScratch b w s).buffer = s.buffer := rfl
@[simp] theorem newFrameScratch_maxLen : (newFrameScratch b w s).maxLen = s.maxLen := rfl
@[simp] theorem newFrameScratch_host : (newFrameScratch b w s).host = s.host := rfl
@[simp] theorem newFrameScratch_ready : (newFrameScratch b w s).ready = s.ready := rfl
@[simp] theorem newFrameScratch_draws : (newFrameScratch b w s).draws = s.draws := rfl

/-! ## `initialise` -/

@[simp] theorem initialise_cfgExt : (initialise v tol s).cfgExt = v := rfl
@[simp] theorem initialise_cfgTol : (initialise v tol s).cfgTol = tol := rfl
@[simp] theorem initialise_lastValid : (initialise v tol s).lastValid = false := rfl
@[simp] theorem initialise_lastCode : (initialise v tol s).lastCode = Config.freeLastCode s.draws := rfl
@[simp] theorem initialise_resValid : (initialise v tol s).resValid = false := rfl
@[simp] theorem initialise_resValue : (initialise v tol s).resValue = 0#24 := rfl
@[simp] theorem initialise_resStatus : (initialise v tol s).resStatus = .none := rfl
@[simp] theorem initialise_fsm : (initialise v tol s).fsm = .idle := rfl
@[simp] theorem initialise_scanI : (initialise v tol s).scanI = Config.freeScanI s.draws := rfl
@[simp] theorem initialise_start : (initialise v tol s).start = Config.freeStart s.draws := rfl
@[simp] theorem initialise_mtype : (initialise v tol s).mtype = Config.freeMType s.draws := rfl
@[simp] theorem initialise_bitK : (initialise v tol s).bitK = Config.freeBitK s.draws := rfl
@[simp] theorem initialise_payload : (initialise v tol s).payload = Config.freePayload s.draws := rfl
@[simp] theorem initialise_buffer : (initialise v tol s).buffer = s.buffer := rfl
@[simp] theorem initialise_maxLen : (initialise v tol s).maxLen = s.maxLen := rfl
@[simp] theorem initialise_host : (initialise v tol s).host = s.host := rfl
@[simp] theorem initialise_ready : (initialise v tol s).ready = true := rfl
@[simp] theorem initialise_draws : (initialise v tol s).draws = s.draws + 1 := rfl

/-! ## `beginDecode` -/

@[simp] theorem beginDecode_cfgExt : (beginDecode s).cfgExt = s.cfgExt := rfl
@[simp] theorem beginDecode_cfgTol : (beginDecode s).cfgTol = s.cfgTol := rfl
@[simp] theorem beginDecode_lastValid : (beginDecode s).lastValid = s.lastValid := rfl
@[simp] theorem beginDecode_lastCode : (beginDecode s).lastCode = s.lastCode := rfl
@[simp] theorem beginDecode_resValid : (beginDecode s).resValid = s.resValid := rfl
@[simp] theorem beginDecode_resValue : (beginDecode s).resValue = s.resValue := rfl
@[simp] theorem beginDecode_resStatus : (beginDecode s).resStatus = s.resStatus := rfl
@[simp] theorem beginDecode_fsm : (beginDecode s).fsm = .locate := rfl
@[simp] theorem beginDecode_scanI : (beginDecode s).scanI = 0 := rfl
@[simp] theorem beginDecode_start : (beginDecode s).start = s.start := rfl
@[simp] theorem beginDecode_mtype : (beginDecode s).mtype = s.mtype := rfl
@[simp] theorem beginDecode_bitK : (beginDecode s).bitK = s.bitK := rfl
@[simp] theorem beginDecode_payload : (beginDecode s).payload = s.payload := rfl
@[simp] theorem beginDecode_buffer : (beginDecode s).buffer = s.buffer := rfl
@[simp] theorem beginDecode_maxLen : (beginDecode s).maxLen = s.maxLen := rfl
@[simp] theorem beginDecode_host : (beginDecode s).host = s.host := rfl
@[simp] theorem beginDecode_ready : (beginDecode s).ready = s.ready := rfl
@[simp] theorem beginDecode_draws : (beginDecode s).draws = s.draws := rfl

/-! ## What the Repeat path, and CHECK with COMMIT, leave alone -/

@[simp] theorem repeatPath_cfgExt : (repeatPath s).cfgExt = s.cfgExt := by unfold repeatPath; split <;> rfl
@[simp] theorem repeatPath_cfgTol : (repeatPath s).cfgTol = s.cfgTol := by unfold repeatPath; split <;> rfl
@[simp] theorem repeatPath_lastValid : (repeatPath s).lastValid = s.lastValid := by unfold repeatPath; split <;> rfl
@[simp] theorem repeatPath_lastCode : (repeatPath s).lastCode = s.lastCode := by unfold repeatPath; split <;> rfl
@[simp] theorem repeatPath_fsm : (repeatPath s).fsm = .idle := by unfold repeatPath; split <;> rfl
@[simp] theorem repeatPath_scanI : (repeatPath s).scanI = s.scanI := by unfold repeatPath; split <;> rfl
@[simp] theorem repeatPath_start : (repeatPath s).start = s.start := by unfold repeatPath; split <;> rfl
@[simp] theorem repeatPath_mtype : (repeatPath s).mtype = s.mtype := by unfold repeatPath; split <;> rfl
@[simp] theorem repeatPath_bitK : (repeatPath s).bitK = s.bitK := by unfold repeatPath; split <;> rfl
@[simp] theorem repeatPath_payload : (repeatPath s).payload = s.payload := by unfold repeatPath; split <;> rfl
@[simp] theorem repeatPath_buffer : (repeatPath s).buffer = s.buffer := by unfold repeatPath; split <;> rfl
@[simp] theorem repeatPath_maxLen : (repeatPath s).maxLen = s.maxLen := by unfold repeatPath; split <;> rfl
@[simp] theorem repeatPath_host : (repeatPath s).host = s.host := by unfold repeatPath; split <;> rfl
@[simp] theorem repeatPath_ready : (repeatPath s).ready = s.ready := by unfold repeatPath; split <;> rfl
@[simp] theorem repeatPath_draws : (repeatPath s).draws = s.draws := by unfold repeatPath; split <;> rfl

@[simp] theorem checkPayload_cfgExt : (checkPayload s).cfgExt = s.cfgExt := by unfold checkPayload; split <;> rfl
@[simp] theorem checkPayload_cfgTol : (checkPayload s).cfgTol = s.cfgTol := by unfold checkPayload; split <;> rfl
@[simp] theorem checkPayload_fsm : (checkPayload s).fsm = .idle := by unfold checkPayload; split <;> rfl
@[simp] theorem checkPayload_scanI : (checkPayload s).scanI = s.scanI := by unfold checkPayload; split <;> rfl
@[simp] theorem checkPayload_start : (checkPayload s).start = s.start := by unfold checkPayload; split <;> rfl
@[simp] theorem checkPayload_mtype : (checkPayload s).mtype = s.mtype := by unfold checkPayload; split <;> rfl
@[simp] theorem checkPayload_bitK : (checkPayload s).bitK = s.bitK := by unfold checkPayload; split <;> rfl
@[simp] theorem checkPayload_payload : (checkPayload s).payload = s.payload := by unfold checkPayload; split <;> rfl
@[simp] theorem checkPayload_buffer : (checkPayload s).buffer = s.buffer := by unfold checkPayload; split <;> rfl
@[simp] theorem checkPayload_maxLen : (checkPayload s).maxLen = s.maxLen := by unfold checkPayload; split <;> rfl
@[simp] theorem checkPayload_host : (checkPayload s).host = s.host := by unfold checkPayload; split <;> rfl
@[simp] theorem checkPayload_ready : (checkPayload s).ready = s.ready := by unfold checkPayload; split <;> rfl
@[simp] theorem checkPayload_draws : (checkPayload s).draws = s.draws := by unfold checkPayload; split <;> rfl

end Sys2Proof.Machine
end

