-- ==== Sys2Proof/Laws/Ops.lean ====
section
/-! SUPPORT. What the shared operations and the meanings can do, said once: the accepted argument, the checks, the
outcome of DECODE and of the frame forms in every state. -/

namespace Sys2Proof.Machine

variable {s t : State} {iv : List Micros}

/-! ## The argument of a DECODE -/

theorem decodeArgument_ok : decodeArgument s = .ok iv ↔ DecodeReady iv s := by
  unfold decodeArgument bufferArgument DecodeReady
  by_cases h1 : s.fsm = .idle
  · by_cases h2 : s.ready = true
    · by_cases h3 : s.maxLen < s.buffer.length
      · simp [h1, h2, h3, Nat.not_le.mpr h3]
      · cases h4 : durations s.buffer <;> simp [h1, h2, h3, Nat.not_lt.mp h3]
    · simp [h1, h2]
  · simp [h1]

theorem DecodeReady.argument (h : DecodeReady iv s) : decodeArgument s = .ok iv := decodeArgument_ok.mpr h

theorem DecodeReady.idle (h : DecodeReady iv s) : s.fsm = .idle := h.1

/-! ## The checks, bit by bit -/

theorem byte_xor_eq_ff {x y : Byte} : x ^^^ y = 0xFF#8 ↔ ∀ i < 8, x.getLsbD i ≠ y.getLsbD i := by
  have e : ∀ i < 8, (0xFF#8).getLsbD i = true := by decide
  constructor
  · intro h i hi hc
    have := congrArg (fun z : Byte => z.getLsbD i) h
    simp [e i hi, hc] at this
  · intro h
    apply BitVec.eq_of_getLsbD_eq
    intro i hi
    simpa [e i hi] using h i hi

theorem checksPass_iff {ext : Bool} {w : Payload} : (cmdOk w && addrOk ext w) = true ↔ ChecksPass ext w := by
  have key : ∀ i j : Nat, complementary (w.extractLsb' i 8) (w.extractLsb' j 8) = true ↔
      ∀ k < 8, w.getLsbD (i + k) ≠ w.getLsbD (j + k) := by
    intro i j
    rw [complementary, beq_iff_eq, byte_xor_eq_ff]
    exact forall₂_congr fun k hk => by simp [hk]
  simp only [Bool.and_eq_true, cmdOk, addrOk, Bool.or_eq_true, cmdField, cmdInvField, addrField, addrInvField, key,
    ChecksPass]
  cases ext <;> simp

/-- The packer's shift and or is the concatenation of the fields. -/
theorem pack_eq_resultWord (ext : Bool) (w : Payload) : pack ext w = ResultWord ext w := by
  apply BitVec.eq_of_getLsbD_eq
  intro i hi
  cases ext <;>
    simp [pack, ResultWord, addressOf, addrField, extAddrField, cmdField, hi] <;>
    by_cases h8 : i < 8 <;> simp [h8] <;> grind

/-! ## CHECK with COMMIT, and the Repeat path -/

theorem checkPayload_pass (h : ChecksPass s.cfgExt s.payload) : checkPayload s = commitPayload s := by
  simp [checkPayload, checksPass_iff.mpr h]

theorem checkPayload_mismatch (h : ¬ ChecksPass s.cfgExt s.payload) :
    checkPayload s = failWith .redundancyMismatch s := by
  have : (cmdOk s.payload && addrOk s.cfgExt s.payload) = false := by
    rw [← Bool.not_eq_true]; exact fun hc => h (checksPass_iff.mp hc)
  simp [checkPayload, this]

/-- Everything CHECK with COMMIT can do. -/
theorem checkPayload_cases (s : State) :
    (ChecksPass s.cfgExt s.payload ∧ checkPayload s = commitPayload s) ∨
    (¬ ChecksPass s.cfgExt s.payload ∧ checkPayload s = failWith .redundancyMismatch s) := by
  by_cases h : ChecksPass s.cfgExt s.payload
  · exact .inl ⟨h, checkPayload_pass h⟩
  · exact .inr ⟨h, checkPayload_mismatch h⟩

/-- Everything the Repeat path can do. -/
theorem repeatPath_cases (s : State) :
    (s.lastValid = true ∧ repeatPath s = finish true s.lastCode .okRepeat s) ∨
    (s.lastValid = false ∧ repeatPath s = failWith .repeatWithoutPrior s) := by
  cases h : s.lastValid <;> simp [repeatPath, h]

/-! ## The buffer's content does not enter the end of a DECODE -/

theorem checkPayload_withBuffer (m : Memory) (s : State) :
    checkPayload { s with buffer := m } = { checkPayload s with buffer := m } := by
  unfold checkPayload
  dsimp only
  split <;> rfl

theorem repeatPath_withBuffer (m : Memory) (s : State) :
    repeatPath { s with buffer := m } = { repeatPath s with buffer := m } := by
  unfold repeatPath
  dsimp only
  split <;> rfl

/-! ## Every list is of one kind -/

/-- The kinds of list R203 goes through, in its order. -/
theorem list_cases (tol : Micros) (iv : List Micros) :
    (∀ v ∈ iv, inBurst tol v = false) ∨
    ∃ b, FirstBurst tol iv b ∧
      (iv.length = b + 1 ∨ PauseIsInvalid tol iv b ∨ PauseIsRepeat tol iv b ∨
        (PauseIsNew tol iv b ∧
          (iv.length - b < 67 ∨ (67 ≤ iv.length - b ∧ ¬ CountAndTerminatorOk tol iv b) ∨
            (CountAndTerminatorOk tol iv b ∧ ∃ w, PayloadAt tol iv b w)))) := by
  cases hl : locate tol iv with
  | none => exact .inl (locateFrom_eq_none.mp hl)
  | some b =>
    have hb := locate_eq_some hl
    refine .inr ⟨b, hb, ?_⟩
    by_cases hp : iv.length = b + 1
    · exact .inl hp
    have hlt : b + 1 < iv.length := by have := hb.lt_length; omega
    have hpe : iv[b + 1]? = some iv[b + 1] := by simp [hlt]
    obtain ⟨h1, h2, h3⟩ := pause_of_classify (tol := tol) hpe
    cases hc : classify tol iv[b + 1] with
    | invalid => exact .inr (.inl (h3 hc))
    | repeatMsg => exact .inr (.inr (.inl (h2 hc)))
    | newMsg =>
      refine .inr (.inr (.inr ⟨h1 hc, ?_⟩))
      by_cases hn : iv.length - b < 67
      · exact .inl hn
      by_cases ht : CountAndTerminatorOk tol iv b
      · obtain ⟨w, -, hw⟩ := convert_spec (tol := tol) (Nat.not_lt.mp hn)
        exact .inr (.inr ⟨ht, w, hw⟩)
      · exact .inr (.inl ⟨Nat.not_lt.mp hn, ht⟩)

/-! ## DECODE, kind by kind -/

theorem execDecode_noBurst (h : DecodeReady iv s) (hn : ∀ v ∈ iv, inBurst s.cfgTol v = false) :
    execDecode s = .next (failWith .noLeadingBurst { s with scanI := iv.length }) := by
  have hl : locate s.cfgTol iv = none := locateFrom_eq_none.mpr hn
  simp [execDecode, h.argument, decodeList, hl]

variable {b : Nat} {w : Payload}

theorem execDecode_noPause (h : DecodeReady iv s) (hb : FirstBurst s.cfgTol iv b) (hp : iv.length = b + 1) :
    execDecode s = .next (failWith .structShort { s with scanI := b, start := b, mtype := .invalid }) := by
  simp [execDecode, h.argument, decodeList, hb.locate, hp]

theorem execDecode_invalid (h : DecodeReady iv s) (hb : FirstBurst s.cfgTol iv b)
    (hp : PauseIsInvalid s.cfgTol iv b) :
    execDecode s = .next (failWith .unclassifiable { s with scanI := b, start := b, mtype := .invalid }) := by
  obtain ⟨p, hp, hc⟩ := hp.classify
  simp [execDecode, h.argument, decodeList, hb.locate, hp, hc]

theorem execDecode_repeat (h : DecodeReady iv s) (hb : FirstBurst s.cfgTol iv b)
    (hp : PauseIsRepeat s.cfgTol iv b) :
    execDecode s = .next (repeatPath { s with scanI := b, start := b, mtype := .repeatMsg }) := by
  obtain ⟨p, hp, hc⟩ := hp.classify
  simp [execDecode, h.argument, decodeList, hb.locate, hp, hc]

theorem execDecode_short (h : DecodeReady iv s) (hb : FirstBurst s.cfgTol iv b)
    (hp : PauseIsNew s.cfgTol iv b) (hn : iv.length - b < 67) :
    execDecode s = .next (failWith .structShort { s with scanI := b, start := b, mtype := .newMsg }) := by
  obtain ⟨p, hp, -, hc⟩ := hp.classify
  simp [execDecode, h.argument, decodeList, newPath, hb.locate, hp, hc, validNew_short hn]

theorem validNew_of_new {tol : Micros} (hp : PauseIsNew tol iv b) (hn : 67 ≤ iv.length - b) :
    (CountAndTerminatorOk tol iv b → validNew tol iv b = some .pass) ∧
    (¬ CountAndTerminatorOk tol iv b → validNew tol iv b = some (.fail .malformed)) := by
  obtain ⟨p, hp, hnew, -⟩ := hp.classify
  obtain ⟨p', t, hp', ht, e⟩ := validNew_full (tol := tol) hn
  rw [hp, Option.some.injEq] at hp'
  subst hp'
  constructor
  · rintro ⟨-, v, hv, hs⟩
    have hs : inShort tol v = true := hs
    rw [params_idxTermNew, ht, Option.some.injEq] at hv
    simp [e, hnew, hv, hs]
  · intro hc
    have : inShort tol t = false := by
      rw [← Bool.not_eq_true]
      exact fun hs => hc ⟨hn, t, ht, hs⟩
    simp [e, hnew, this]

/-! ## The New path, of any payload -/

theorem newPath_short {p : Option Payload} (hn : iv.length - b < 67) :
    newPath iv b p s = .next (failWith .structShort { s with scanI := b, start := b, mtype := .newMsg }) := by
  simp [newPath, validNew_short hn]

theorem newPath_malformed {p : Option Payload} (hn : 67 ≤ iv.length - b)
    (hc : ¬ (PauseIsNew s.cfgTol iv b ∧ CountAndTerminatorOk s.cfgTol iv b)) :
    newPath iv b p s = .next (failWith .malformed { s with scanI := b, start := b, mtype := .newMsg }) := by
  obtain ⟨q, t, hq, ht, e⟩ := validNew_full (tol := s.cfgTol) hn
  have hv : validNew s.cfgTol iv b = some (.fail .malformed) := by
    rw [e]
    cases h1 : inNew s.cfgTol q with
    | false => rfl
    | true =>
      cases h2 : inShort s.cfgTol t with
      | false => rfl
      | true => exact absurd ⟨⟨q, hq, h1⟩, hn, t, ht, h2⟩ hc
  simp [newPath, hv]

theorem newPath_complete (hp : PauseIsNew s.cfgTol iv b) (ht : CountAndTerminatorOk s.cfgTol iv b) :
    newPath iv b (some w) s = .next (checkPayload (newFrameScratch b w s)) := by
  simp [newPath, (validNew_of_new hp ht.1).1 ht]

/-- Everything the New path can do with a payload. -/
theorem newPath_cases (iv : List Micros) (b : Nat) (w : Payload) (s : State) :
    (iv.length - b < 67 ∧
      newPath iv b (some w) s = .next (failWith .structShort { s with scanI := b, start := b, mtype := .newMsg })) ∨
    (67 ≤ iv.length - b ∧ ¬ (PauseIsNew s.cfgTol iv b ∧ CountAndTerminatorOk s.cfgTol iv b) ∧
      newPath iv b (some w) s = .next (failWith .malformed { s with scanI := b, start := b, mtype := .newMsg })) ∨
    (PauseIsNew s.cfgTol iv b ∧ CountAndTerminatorOk s.cfgTol iv b ∧
      newPath iv b (some w) s = .next (checkPayload (newFrameScratch b w s))) := by
  by_cases hn : iv.length - b < 67
  · exact .inl ⟨hn, newPath_short hn⟩
  · by_cases hc : PauseIsNew s.cfgTol iv b ∧ CountAndTerminatorOk s.cfgTol iv b
    · exact .inr (.inr ⟨hc.1, hc.2, newPath_complete hc.1 hc.2⟩)
    · exact .inr (.inl ⟨Nat.not_lt.mp hn, hc, newPath_malformed (Nat.not_lt.mp hn) hc⟩)

theorem execDecode_malformed (h : DecodeReady iv s) (hb : FirstBurst s.cfgTol iv b)
    (hp : PauseIsNew s.cfgTol iv b) (hn : 67 ≤ iv.length - b) (ht : ¬ CountAndTerminatorOk s.cfgTol iv b) :
    execDecode s = .next (failWith .malformed { s with scanI := b, start := b, mtype := .newMsg }) := by
  have hv := (validNew_of_new hp hn).2 ht
  obtain ⟨p, hp, -, hc⟩ := hp.classify
  simp [execDecode, h.argument, decodeList, newPath, hb.locate, hp, hc, hv]

theorem execDecode_new (h : DecodeReady iv s) (hb : FirstBurst s.cfgTol iv b)
    (hp : PauseIsNew s.cfgTol iv b) (ht : CountAndTerminatorOk s.cfgTol iv b) (hw : PayloadAt s.cfgTol iv b w) :
    execDecode s = .next (checkPayload (newFrameScratch b w s)) := by
  have hv := (validNew_of_new hp ht.1).1 ht
  obtain ⟨p, hp, -, hc⟩ := hp.classify
  simp [execDecode, h.argument, decodeList, newPath, hb.locate, hp, hc, hv, hw.convert ht.1]

/-- Everything a DECODE that the host may issue can do. -/
theorem execDecode_cases (h : DecodeReady iv s) :
    ((∀ v ∈ iv, inBurst s.cfgTol v = false) ∧
      execDecode s = .next (failWith .noLeadingBurst { s with scanI := iv.length })) ∨
    ∃ b, FirstBurst s.cfgTol iv b ∧
      ((iv.length = b + 1 ∧
          execDecode s = .next (failWith .structShort { s with scanI := b, start := b, mtype := .invalid })) ∨
       (PauseIsInvalid s.cfgTol iv b ∧
          execDecode s = .next (failWith .unclassifiable { s with scanI := b, start := b, mtype := .invalid })) ∨
       (PauseIsRepeat s.cfgTol iv b ∧
          execDecode s = .next (repeatPath { s with scanI := b, start := b, mtype := .repeatMsg })) ∨
       (PauseIsNew s.cfgTol iv b ∧ iv.length - b < 67 ∧
          execDecode s = .next (failWith .structShort { s with scanI := b, start := b, mtype := .newMsg })) ∨
       (PauseIsNew s.cfgTol iv b ∧ 67 ≤ iv.length - b ∧ ¬ CountAndTerminatorOk s.cfgTol iv b ∧
          execDecode s = .next (failWith .malformed { s with scanI := b, start := b, mtype := .newMsg })) ∨
       (PauseIsNew s.cfgTol iv b ∧ CountAndTerminatorOk s.cfgTol iv b ∧ ∃ w, PayloadAt s.cfgTol iv b w ∧
          execDecode s = .next (checkPayload (newFrameScratch b w s)))) := by
  obtain hn | ⟨b, hb, hp | hp | hp | ⟨hp, hs | ⟨hn, ht⟩ | ⟨ht, w, hw⟩⟩⟩ := list_cases s.cfgTol iv
  · exact .inl ⟨hn, execDecode_noBurst h hn⟩
  · exact .inr ⟨b, hb, .inl ⟨hp, execDecode_noPause h hb hp⟩⟩
  · exact .inr ⟨b, hb, .inr (.inl ⟨hp, execDecode_invalid h hb hp⟩)⟩
  · exact .inr ⟨b, hb, .inr (.inr (.inl ⟨hp, execDecode_repeat h hb hp⟩))⟩
  · exact .inr ⟨b, hb, .inr (.inr (.inr (.inl ⟨hp, hs, execDecode_short h hb hp hs⟩)))⟩
  · exact .inr ⟨b, hb, .inr (.inr (.inr (.inr (.inl ⟨hp, hn, ht, execDecode_malformed h hb hp hn ht⟩))))⟩
  · exact .inr ⟨b, hb, .inr (.inr (.inr (.inr (.inr ⟨hp, ht, w, hw, execDecode_new h hb hp ht hw⟩))))⟩

end Sys2Proof.Machine

namespace Sys2Proof

/-! ## The classes exclude each other -/

variable {iv : List Micros} {b : Nat}

theorem FirstBurst.unique {tol : Micros} {b' : Nat} (h : FirstBurst tol iv b) (h' : FirstBurst tol iv b') :
    b = b' := by
  have := h.locate.symm.trans h'.locate
  simpa using this

theorem PauseIsNew.not_repeat {tol : Micros} (h : PauseIsNew tol iv b) : ¬ PauseIsRepeat tol iv b := by
  rintro ⟨p, hp, hn, -⟩
  obtain ⟨p', hp', hn'⟩ := h
  rw [hp, Option.some.injEq] at hp'
  rw [hp', hn'] at hn
  exact absurd hn (by simp)

theorem PauseIsNew.not_invalid {tol : Micros} (h : PauseIsNew tol iv b) : ¬ PauseIsInvalid tol iv b := by
  rintro ⟨p, hp, hn, -⟩
  obtain ⟨p', hp', hn'⟩ := h
  rw [hp, Option.some.injEq] at hp'
  rw [hp', hn'] at hn
  exact absurd hn (by simp)

theorem PauseIsRepeat.not_invalid {tol : Micros} (h : PauseIsRepeat tol iv b) : ¬ PauseIsInvalid tol iv b := by
  rintro ⟨p, hp, -, hn⟩
  obtain ⟨p', hp', -, hn'⟩ := h
  rw [hp, Option.some.injEq] at hp'
  rw [hp', hn'] at hn
  exact absurd hn (by simp)

end Sys2Proof
end

