-- ==== Sys2Proof/Laws/Exec.lean ====
section
/-! SUPPORT. What an instruction can do in ANY state, said once, and the steps of the host's moves. -/

namespace Sys2Proof.Machine

variable {s t : State} {iv : List Micros}

/-- The effect of a completed DECODE form: the frame, the return to IDLE, and one of three results. -/
def DecodeEffect (s t : State) : Prop :=
  DecodeFrame s t ∧ t.fsm = .idle ∧
  ((t.res = (true, pack t.cfgExt t.payload, .okNew) ∧ t.lastValid = true ∧ t.lastCode = pack t.cfgExt t.payload) ∨
   (t.res = (true, s.lastCode, .okRepeat) ∧ s.lastValid = true ∧ SameLast s t) ∨
   (∃ e : Status, t.res = (false, 0#24, e) ∧ e.valid = false ∧ SameLast s t))

/-- `u` differs from `s` in scratch registers at most. -/
def ScratchOnly (s u : State) : Prop := DecodeFrame s u ∧ SameLast s u

theorem ScratchOnly.failWith {u : State} (h : ScratchOnly s u) {e : Status} (he : e.valid = false) :
    DecodeEffect s (failWith e u) := by
  obtain ⟨⟨⟨h1, h2⟩, h3⟩, h4⟩ := h
  exact ⟨⟨⟨h1, h2⟩, h3⟩, rfl, .inr (.inr ⟨e, rfl, he, h4⟩)⟩

theorem ScratchOnly.repeatPath {u : State} (h : ScratchOnly s u) : DecodeEffect s (repeatPath u) := by
  obtain ⟨hv, e⟩ | ⟨hv, e⟩ := repeatPath_cases u
  · rw [e]
    obtain ⟨⟨⟨h1, h2⟩, h3⟩, h4, h5⟩ := h
    exact ⟨⟨⟨h1, h2⟩, h3⟩, rfl, .inr (.inl ⟨by simp [State.res, h5], by rw [← h4]; exact hv, h4, h5⟩)⟩
  · rw [e]; exact h.failWith rfl

theorem ScratchOnly.checkPayload {u : State} (h : ScratchOnly s u) : DecodeEffect s (checkPayload u) := by
  obtain ⟨-, e⟩ | ⟨-, e⟩ := checkPayload_cases u
  · rw [e]
    obtain ⟨⟨⟨h1, h2⟩, h3⟩, -⟩ := h
    exact ⟨⟨⟨h1, h2⟩, h3⟩, rfl, .inl ⟨rfl, rfl, rfl⟩⟩
  · rw [e]; exact h.failWith rfl

theorem scratchOnly_update (s : State) (a b : Nat) (m : MType) (w : Payload) (k : BitVec 6) :
    ScratchOnly s { s with scanI := a, start := b, mtype := m, payload := w, bitK := k } :=
  ⟨⟨⟨rfl, rfl⟩, fun _ => rfl, rfl, rfl, rfl, rfl⟩, rfl, rfl⟩

theorem newFrameScratch_only (b : Nat) (w : Payload) (s : State) : ScratchOnly s (newFrameScratch b w s) :=
  scratchOnly_update s b b .newMsg w _

/-- The New path completes, with the effect of a DECODE form. -/
theorem newPath_effect (iv : List Micros) (b : Nat) (w : Payload) (s : State) :
    ∃ t, newPath iv b (some w) s = .next t ∧ DecodeEffect s t := by
  obtain ⟨-, e⟩ | ⟨-, -, e⟩ | ⟨-, -, e⟩ := newPath_cases iv b w s
  · exact ⟨_, e, (scratchOnly_update s b b .newMsg s.payload s.bitK).failWith rfl⟩
  · exact ⟨_, e, (scratchOnly_update s b b .newMsg s.payload s.bitK).failWith rfl⟩
  · exact ⟨_, e, (newFrameScratch_only b w s).checkPayload⟩

/-- DECODE of an accepted list completes, with the effect of a DECODE form. -/
theorem execDecode_ready (h : DecodeReady iv s) : ∃ t, execDecode s = .next t ∧ DecodeEffect s t := by
  obtain ⟨-, e⟩ | ⟨b, -, ⟨-, e⟩ | ⟨-, e⟩ | ⟨-, e⟩ | ⟨-, -, e⟩ | ⟨-, -, -, e⟩ | ⟨-, -, w, -, e⟩⟩ := execDecode_cases h
  · exact ⟨_, e, (scratchOnly_update s iv.length s.start s.mtype s.payload s.bitK).failWith rfl⟩
  · exact ⟨_, e, (scratchOnly_update s b b .invalid s.payload s.bitK).failWith rfl⟩
  · exact ⟨_, e, (scratchOnly_update s b b .invalid s.payload s.bitK).failWith rfl⟩
  · exact ⟨_, e, (scratchOnly_update s b b .repeatMsg s.payload s.bitK).repeatPath⟩
  · exact ⟨_, e, (scratchOnly_update s b b .newMsg s.payload s.bitK).failWith rfl⟩
  · exact ⟨_, e, (scratchOnly_update s b b .newMsg s.payload s.bitK).failWith rfl⟩
  · exact ⟨_, e, (newFrameScratch_only b w s).checkPayload⟩

/-- A DECODE form is refused when the argument is not accepted, and completes when it is. -/
theorem exec_decodeForm {i : Instr} (hi : isDecodeForm i = true) :
    (∀ r, decodeArgument s = .error r → exec i s = .refused r) ∧
    (DecodeReady iv s → ∃ t, exec i s = .next t ∧ DecodeEffect s t) := by
  cases i with
  | init ext tol => simp [isDecodeForm] at hi
  | decode =>
    exact ⟨fun r hr => by simp [exec, execDecode, hr], fun h => execDecode_ready h⟩
  | frameNewStd start a b c k =>
    exact ⟨fun r hr => by simp [exec, execFrameNewStd, hr], fun h =>
      by simp only [exec, execFrameNewStd, h.argument]; exact newPath_effect iv start _ s⟩
  | frameNewExt start e c k =>
    exact ⟨fun r hr => by simp [exec, execFrameNewExt, hr], fun h =>
      by simp only [exec, execFrameNewExt, h.argument]; exact newPath_effect iv start _ s⟩
  | frameRepeat start =>
    exact ⟨fun r hr => by simp [exec, execFrameRepeat, hr], fun h =>
      ⟨_, by simp [exec, execFrameRepeat, h.argument],
        (scratchOnly_update s start start .repeatMsg s.payload s.bitK).repeatPath⟩⟩

/-- Everything a DECODE form can answer, in any state. -/
theorem exec_decodeForm_cases {i : Instr} (hi : isDecodeForm i = true) (s : State) :
    (∃ r, decodeArgument s = .error r ∧ exec i s = .refused r) ∨
    (∃ iv t, DecodeReady iv s ∧ exec i s = .next t ∧ DecodeEffect s t) := by
  cases h : decodeArgument s with
  | error r => exact .inl ⟨r, rfl, (exec_decodeForm (iv := []) hi).1 r h⟩
  | ok iv =>
    have hr := decodeArgument_ok.mp h
    obtain ⟨t, ht⟩ := (exec_decodeForm hi).2 hr
    exact .inr ⟨iv, t, hr, ht⟩

theorem exec_decodeForm_next {i : Instr} (hi : isDecodeForm i = true) (h : exec i s = .next t) :
    DecodeEffect s t := by
  obtain ⟨r, -, e⟩ | ⟨-, t', -, e, ht⟩ := exec_decodeForm_cases hi s
  · simp [e] at h
  · simp only [e, Host.Outcome.next.injEq] at h
    exact h ▸ ht

/-- Everything INIT can answer, in any state. -/
theorem execInit_cases (ext : Bool) (tol : Micros) (s : State) :
    (s.fsm = .idle ∧ exec (.init ext tol) s = .next (initialise ext tol s)) ∨
    (s.fsm ≠ .idle ∧ exec (.init ext tol) s = .refused .hostMoveWhileBusy) := by
  by_cases h : s.fsm = .idle
  · exact .inl ⟨h, by simp [exec, execInit, h]⟩
  · exact .inr ⟨h, by simp [exec, execInit, h]⟩

/-! ## The instruction a command is -/

theorem decode_init {ext : Bool} {tol : Micros} {c : Command} {m : Memory} (h : c.cmd = 1#1) :
    decode ext tol c m = .init (c.ext == 1#1) c.tol := by
  simp [decode, h]

theorem frameForm_isDecodeForm (ext : Bool) (tol : Micros) (iv : List Micros) :
    isDecodeForm (frameForm ext tol iv) = true := by
  unfold frameForm
  repeat' split
  all_goals rfl

theorem decode_isDecodeForm {ext : Bool} {tol : Micros} {c : Command} {m : Memory} (h : c.cmd ≠ 1#1) :
    isDecodeForm (decode ext tol c m) = true := by
  unfold decode
  split
  · contradiction
  · split
    · rfl
    · exact frameForm_isDecodeForm _ _ _

/-! ## The interval buffer -/

/-- No instruction writes the interval buffer (R40). -/
theorem exec_buffer {i : Instr} (h : exec i s = .next t) : ∀ j, t.buffer.read j = s.buffer.read j := by
  by_cases hi : isDecodeForm i = true
  · exact (exec_decodeForm_next hi h).1.2.1
  · cases i with
    | init ext tol =>
      obtain ⟨-, e⟩ | ⟨-, e⟩ := execInit_cases ext tol s
      · simp only [e, Host.Outcome.next.injEq] at h; subst h; exact fun _ => rfl
      · simp [e] at h
    | _ => simp [isDecodeForm] at hi

theorem memory_ext {m m' : Memory} (h : ∀ j, m.read j = m'.read j) : m = m' := List.ext_getElem? h

/-- No instruction takes the buffer out of the contract, and at reset it is within it. -/
theorem exec_keeps_memory_wf {i : Instr} (h : exec i s = .next t) (n : Nat) :
    t.buffer.wf n = s.buffer.wf n := by
  rw [memory_ext (exec_buffer h)]

theorem reset_memory_wf : State.reset.buffer.wf State.reset.maxLen = true := rfl

/-- The collector's move keeps the contract when the list it places is within it. -/
theorem fillBuffer_keeps_memory_wf {m : Memory} {n : Nat} (hm : m.wf n = true) (h : fillBuffer m s = .next t) :
    t.buffer.wf n = true := by
  unfold fillBuffer at h
  split at h
  · simp only [Host.Outcome.next.injEq] at h; subst h; exact hm
  · simp at h

end Sys2Proof.Machine
end

