-- ==== Sys2Proof/Laws/Encoding.lean ====
section
/-! SUPPORT. The encoder's lists, element by element, and the fields of the payload patterns. -/

namespace Sys2Proof

/-! ## Payload patterns, bit by bit -/

theorem stdPayload_getLsbD (a b c k : Byte) (i : Nat) :
    (stdPayload a b c k).getLsbD i =
      if i < 8 then a.getLsbD i else if i < 16 then b.getLsbD (i - 8)
      else if i < 24 then c.getLsbD (i - 16) else k.getLsbD (i - 24) := by
  have h1 := BitVec.getLsbD_append (x := k ++ c ++ b) (y := a) (i := i)
  have h2 := BitVec.getLsbD_append (x := k ++ c) (y := b) (i := i - 8)
  have h3 := BitVec.getLsbD_append (x := k) (y := c) (i := i - 8 - 8)
  unfold stdPayload
  refine Eq.trans h1 ?_
  rw [h2, h3]
  grind

theorem extPayload_getLsbD (e : BitVec 16) (c k : Byte) (i : Nat) :
    (extPayload e c k).getLsbD i =
      if i < 16 then e.getLsbD i else if i < 24 then c.getLsbD (i - 16) else k.getLsbD (i - 24) := by
  have h1 := BitVec.getLsbD_append (x := k ++ c) (y := e) (i := i)
  have h3 := BitVec.getLsbD_append (x := k) (y := c) (i := i - 16)
  unfold extPayload
  refine Eq.trans h1 ?_
  rw [h3]
  grind

@[simp] theorem addrField_std (a b c k : Byte) : addrField (stdPayload a b c k) = a := by
  apply BitVec.eq_of_getLsbD_eq; intro i hi
  simp [addrField, stdPayload_getLsbD, hi]

@[simp] theorem addrInvField_std (a b c k : Byte) : addrInvField (stdPayload a b c k) = b := by
  apply BitVec.eq_of_getLsbD_eq; intro i hi
  simp [addrInvField, stdPayload_getLsbD, hi]
  grind

@[simp] theorem cmdField_std (a b c k : Byte) : cmdField (stdPayload a b c k) = c := by
  apply BitVec.eq_of_getLsbD_eq; intro i hi
  simp [cmdField, stdPayload_getLsbD, hi]
  grind

@[simp] theorem cmdInvField_std (a b c k : Byte) : cmdInvField (stdPayload a b c k) = k := by
  apply BitVec.eq_of_getLsbD_eq; intro i hi
  simp [cmdInvField, stdPayload_getLsbD, hi]
  grind

@[simp] theorem extAddrField_ext (e : BitVec 16) (c k : Byte) : extAddrField (extPayload e c k) = e := by
  apply BitVec.eq_of_getLsbD_eq; intro i hi
  simp [extAddrField, extPayload_getLsbD, hi]

@[simp] theorem cmdField_ext (e : BitVec 16) (c k : Byte) : cmdField (extPayload e c k) = c := by
  apply BitVec.eq_of_getLsbD_eq; intro i hi
  simp [cmdField, extPayload_getLsbD, hi]
  grind

@[simp] theorem cmdInvField_ext (e : BitVec 16) (c k : Byte) : cmdInvField (extPayload e c k) = k := by
  apply BitVec.eq_of_getLsbD_eq; intro i hi
  simp [cmdInvField, extPayload_getLsbD, hi]
  grind

theorem stdPayload_fields (w : Payload) :
    stdPayload (addrField w) (addrInvField w) (cmdField w) (cmdInvField w) = w := by
  apply BitVec.eq_of_getLsbD_eq; intro i hi
  simp [stdPayload_getLsbD, addrField, addrInvField, cmdField, cmdInvField]
  grind

theorem extPayload_fields (w : Payload) : extPayload (extAddrField w) (cmdField w) (cmdInvField w) = w := by
  apply BitVec.eq_of_getLsbD_eq; intro i hi
  simp [extPayload_getLsbD, extAddrField, cmdField, cmdInvField]
  grind

/-! ## The nominal frame -/

/-- A list of `n` pairs, element by element. -/
theorem pairs_spec {α : Type} {f : Nat → List α} {g h : Nat → α} (hf : ∀ k, f k = [g k, h k]) (n : Nat) :
    ((List.range n).flatMap f).length = 2 * n ∧
    ∀ k < n, ((List.range n).flatMap f)[2 * k]? = some (g k) ∧
      ((List.range n).flatMap f)[2 * k + 1]? = some (h k) := by
  induction n with
  | zero => simp
  | succ n ih =>
    obtain ⟨hl, hk⟩ := ih
    have e : (List.range (n + 1)).flatMap f = (List.range n).flatMap f ++ [g n, h n] := by
      simp [List.range_succ, hf]
    refine ⟨by simp [e, hl]; omega, fun k hk' => ?_⟩
    rw [e]
    by_cases hkn : k < n
    · rw [List.getElem?_append_left (by omega), List.getElem?_append_left (by omega)]
      exact hk k hkn
    · have : k = n := by omega
      subst this
      rw [List.getElem?_append_right (by omega), List.getElem?_append_right (by omega)]
      simp [hl]

@[simp] theorem nominalFrame_length (p : Payload) : (nominalFrame p).length = 67 := by
  have h := (pairs_spec (f := nominalPair p) (fun k => rfl) 32).1
  simp [nominalFrame, h]

@[simp] theorem nominalFrame_burst (p : Payload) : (nominalFrame p)[0]? = some 9000 := rfl

@[simp] theorem nominalFrame_pause (p : Payload) : (nominalFrame p)[1]? = some 4500 := rfl

theorem nominalFrame_pair (p : Payload) {k : Nat} (hk : k < 32) :
    (nominalFrame p)[2 + 2 * k]? = some (1125 / 2) ∧
    (nominalFrame p)[3 + 2 * k]? = some (if p.getLsbD k then 3375 / 2 else 1125 / 2) := by
  obtain ⟨hl, h⟩ := pairs_spec (f := nominalPair p) (fun k => rfl) 32
  have e1 : 2 + 2 * k = 2 * k + 1 + 1 := by omega
  have e2 : 3 + 2 * k = 2 * k + 1 + 1 + 1 := by omega
  rw [e1, e2]
  simp only [nominalFrame, List.getElem?_cons_succ, params_nBits]
  rw [List.getElem?_append_left (by omega), List.getElem?_append_left (by omega)]
  exact h k hk

theorem nominalFrame_terminator (p : Payload) : (nominalFrame p)[66]? = some (1125 / 2) := by
  have h := (pairs_spec (f := nominalPair p) (fun k => rfl) 32).1
  simp only [nominalFrame, List.getElem?_cons_succ, params_nBits]
  rw [List.getElem?_append_right (by omega), h]
  rfl

/-- Every element of a nominal frame is a burst, a pause, a short or a long interval. -/
theorem mem_nominalFrame {p : Payload} {v : Micros} (h : v ∈ nominalFrame p) :
    v = 9000 ∨ v = 4500 ∨ v = 1125 / 2 ∨ v = 3375 / 2 := by
  simp only [nominalFrame, List.mem_cons, List.mem_append, List.mem_flatMap, nominalPair, List.not_mem_nil, or_false,
    params_tBurst, params_tPauseNew, params_tShort] at h
  rcases h with h | h | ⟨k, -, h | h⟩ | h
  · exact .inl h
  · exact .inr (.inl h)
  · exact .inr (.inr (.inl h))
  · split at h
    · exact .inr (.inr (.inr h))
    · exact .inr (.inr (.inl h))
  · exact .inr (.inr (.inl h))

theorem mem_repeatFrame {v : Micros} (h : v ∈ repeatFrame) : v = 9000 ∨ v = 2250 ∨ v = 1125 / 2 := by
  simpa [repeatFrame] using h

/-- The durations of a placed frame are the list the encoder wrote. -/
theorem durations_placed {start : Nat} {frame : List Micros} (h : ∀ v ∈ frame, 0 ≤ v) :
    durations (placed start frame) = some (List.replicate start Config.params.tShort ++ frame) := by
  apply durations_us
  intro q hq
  rcases List.mem_append.mp hq with hq | hq
  · rw [List.eq_of_mem_replicate hq]; norm_num
  · exact h q hq

theorem nominalFrame_nonneg {p : Payload} : ∀ v ∈ nominalFrame p, 0 ≤ v := by
  intro v hv
  rcases mem_nominalFrame hv with h | h | h | h <;> subst h <;> norm_num

theorem repeatFrame_nonneg : ∀ v ∈ repeatFrame, 0 ≤ v := by
  intro v hv
  rcases mem_repeatFrame hv with h | h | h <;> subst h <;> norm_num

/-! ## The frames at their place, at a positive tolerance -/

variable {tol : Micros}

/-- Every window whose base is its reference holds the reference. -/
theorem win_self {r : Micros} (hr : 0 < r) (h : 0 < tol) : win tol r r r = true := by
  rw [win_eq_true, sub_self, abs_zero]
  exact mul_pos hr h

theorem win_oneNominal (h : tol ≤ 2) : win tol (3375 / 2) (1125 / 2) (1125 / 2) = false := by
  rw [win_eq_false, le_abs]
  left
  linarith

/-- After short intervals a frame's element `i` is element `start + i` of the list. -/
theorem getElem?_afterShorts {n : Nat} {v : Micros} {frame : List Micros} (i : Nat) :
    (List.replicate n v ++ frame)[n + i]? = frame[i]? := by
  rw [List.getElem?_append_right (by simp)]
  simp

/-- The locator finds the frame behind the short intervals. -/
theorem firstBurst_afterShorts (h : 0 < tol) (h2 : tol ≤ 1 / 2) (n : Nat) {frame : List Micros}
    (hf : frame[0]? = some 9000) : FirstBurst tol (List.replicate n (1125 / 2) ++ frame) n := by
  refine ⟨⟨9000, by simpa [hf] using getElem?_afterShorts (n := n) (v := 1125 / 2) (frame := frame) 0,
    win_self (by norm_num) h⟩, fun j hj v hv => ?_⟩
  rw [List.getElem?_append_left (by simpa using hj)] at hv
  rw [List.eq_of_mem_replicate (List.mem_of_getElem? hv), win_eq_false, le_abs]
  right
  norm_num
  linarith

theorem terminatorPlaced_eq (n : Nat) (p : Payload) : terminatorPlaced n p =
    if 66 < n then true else if 66 - n < 2 then false
      else if (66 - n) % 2 = 0 then true else !p.getLsbD ((66 - n - 2 - 1) / 2) := rfl

/-- What `terminatorPlaced` means: absolute index 66 holds a short interval (R122). -/
theorem terminatorPlaced_short {n : Nat} {p : Payload} (hp : terminatorPlaced n p = true) :
    (List.replicate n (1125 / 2) ++ nominalFrame p)[66]? = some (1125 / 2) := by
  rw [terminatorPlaced_eq] at hp
  by_cases hlt : 66 < n
  · rw [List.getElem?_append_left (by simpa using hlt)]
    simp [hlt]
  have e : (List.replicate n (1125 / 2) ++ nominalFrame p)[66]? = (nominalFrame p)[66 - n]? := by
    have h := getElem?_afterShorts (n := n) (v := 1125 / 2) (frame := nominalFrame p) (66 - n)
    rwa [show n + (66 - n) = 66 by omega] at h
  rw [e]
  rw [if_neg hlt] at hp
  by_cases h2 : 66 - n < 2
  · rw [if_pos h2] at hp
    exact absurd hp (by simp)
  rw [if_neg h2] at hp
  by_cases hev : (66 - n) % 2 = 0
  · by_cases h0 : n = 0
    · subst h0; exact nominalFrame_terminator p
    · obtain ⟨k, hk⟩ : ∃ k, 66 - n = 2 + 2 * k := ⟨(66 - n - 2) / 2, by omega⟩
      rw [hk]
      exact (nominalFrame_pair p (by omega)).1
  · rw [if_neg hev] at hp
    obtain ⟨k, hk⟩ : ∃ k, 66 - n = 3 + 2 * k := ⟨(66 - n - 3) / 2, by omega⟩
    rw [hk, show (3 + 2 * k - 2 - 1) / 2 = k by omega] at hp
    rw [hk, (nominalFrame_pair p (by omega)).2]
    have hp : p.getLsbD k = false := by simpa using hp
    simp [hp]

end Sys2Proof
end

