-- ==== Sys2Proof/Laws/MicroSteps.lean ====
section
/-! SUPPORT. The micro-steps of the state machine: what a step of a busy block is, and each micro-step's effect
(46_decoder_fsm.md R153 to R160). -/

namespace Sys2Proof.Machine

variable {s : State} {iv : List Micros}

/-- The list of an idle or busy block is accepted: the checks of a DECODE but for `FSM` (R212). -/
def ArgumentOk (iv : List Micros) (s : State) : Prop := bufferArgument s = .ok iv

theorem ArgumentOk.durations (h : ArgumentOk iv s) : durations s.buffer = some iv := by
  unfold ArgumentOk bufferArgument at h
  split at h
  · simp at h
  · split at h
    · simp at h
    · split at h
      · simp at h
      · next hd => simp only [Except.ok.injEq] at h; rw [hd, h]

theorem ArgumentOk.length (h : ArgumentOk iv s) : iv.length = s.buffer.length := durations_length h.durations

/-- The argument depends on the buffer, its capacity and the reset history alone. -/
theorem bufferArgument_congr {u : State} (h1 : u.ready = s.ready) (h2 : u.maxLen = s.maxLen)
    (h3 : u.buffer = s.buffer) : bufferArgument u = bufferArgument s := by
  simp [bufferArgument, h1, h2, h3]

theorem decodeArgument_idle (h : s.fsm = .idle) : decodeArgument s = bufferArgument s := by
  simp [decodeArgument, h]

/-- A step of a block whose host makes no move: IDLE holds, and a busy block takes a micro-step or is refused. -/
theorem step_noMove (hh : s.host = []) : step s = microStep s := by simp [step, hh]

theorem microStep_idle (h : s.fsm = .idle) : microStep s = .next s := by simp [microStep, h]

theorem microStep_ok (h : s.fsm ≠ .idle) (hb : ArgumentOk iv s) : microStep s = microStepOn iv s := by
  unfold ArgumentOk at hb
  simp [microStep, h, hb]

/-! ## The micro-steps -/

theorem microLocate_end (h : iv.length ≤ s.scanI) : microLocate iv s = .next (failWith .noLeadingBurst s) := by
  simp [microLocate, List.getElem?_eq_none h]

theorem microLocate_found {v : Micros} (hv : iv[s.scanI]? = some v) (hb : inBurst s.cfgTol v = true) :
    microLocate iv s = .next { s with start := s.scanI, fsm := .classify } := by
  simp [microLocate, hv, hb]

theorem microLocate_skip {v : Micros} (hv : iv[s.scanI]? = some v) (hb : inBurst s.cfgTol v = false) :
    microLocate iv s = .next { s with scanI := s.scanI + 1 } := by
  simp [microLocate, hv, hb]

/-- CONVERT at bit `k < 32`, with the sample in the list. -/
theorem microConvert_bit {v : Micros} (hk : s.bitK.toNat < 32) (hv : iv[s.start + 3 + 2 * s.bitK.toNat]? = some v) :
    microConvert iv s = .next { s with
      payload := setBit s.payload s.bitK.toNat (sampleBit s.cfgTol v)
      bitK := s.bitK + 1#6
      fsm := if s.bitK.toNat = 31 then .check else .convert } := by
  simp only [microConvert, params_nBits, hk, if_true, sampleIndex_eq, hv]
  rfl

/-- Everything CHECK can do. -/
theorem microCheck_cases (s : State) :
    (ChecksPass s.cfgExt s.payload ∧ microCheck s = .next { s with fsm := .commit }) ∨
    (¬ ChecksPass s.cfgExt s.payload ∧ microCheck s = .next (failWith .redundancyMismatch s)) := by
  have key := checksPass_iff (ext := s.cfgExt) (w := s.payload)
  unfold microCheck
  cases h1 : cmdOk s.payload <;> cases h2 : addrOk s.cfgExt s.payload <;> simp [h1, h2] at key <;> simp [key]

theorem toNat_succ_bitK {k : BitVec 6} (h : k.toNat < 32) : (k + 1#6).toNat = k.toNat + 1 := by
  simp [BitVec.toNat_add]; omega

end Sys2Proof.Machine
end

