-- ==== Sys2Proof/Laws/PerInstr.lean ====
section
/-! SUPPORT. The statements made for every instruction, one lemma per constructor.

The family `EncodedListInDomain`: the list that the encoder puts in the interval buffer lies in the value domain of the
interface contract (20_memory.md R44). -/

namespace Sys2Proof.Laws.EncodedListInDomain

/-- Every element of the encoded list is a non-negative rational. -/
def Statement (i : Instr) : Prop := (durations (encode i).2).isSome = true

theorem init (ext : Bool) (tol : Micros) : Statement (.init ext tol) := rfl

theorem decode : Statement .decode := rfl

theorem frameNewStd (start : Nat) (a b c k : Byte) : Statement (.frameNewStd start a b c k) := by
  simp [Statement, encode, durations_placed nominalFrame_nonneg]

theorem frameNewExt (start : Nat) (e : BitVec 16) (c k : Byte) : Statement (.frameNewExt start e c k) := by
  simp [Statement, encode, durations_placed nominalFrame_nonneg]

theorem frameRepeat (start : Nat) : Statement (.frameRepeat start) := by
  simp [Statement, encode, durations_placed repeatFrame_nonneg]

end Sys2Proof.Laws.EncodedListInDomain
end

