-- ==== Sys2Proof/Tests/Slice0.lean ====
section
/-! SUPPORT. The model's own tests, and a witness for the premises of every statement that has any. Expected values are
those of 95_test_vectors.md (named in each docstring), which gives them from the source or from the rules. -/

namespace Sys2Proof.Tests

open Sys2Proof.Machine

-- One theorem after the other: the kernel evaluates most of them, and side by side they would take a thread each.
set_option Elab.async false

/-! ## Helpers -/

/-- The block after reset with a list in its buffer. -/
def holding (iv : List Micros) : State := { State.reset with buffer := iv.map .us }

/-- The same with `LAST_VALID = 1` and a stored code. -/
def holdingLast (iv : List Micros) (code : Code) : State :=
  { holding iv with lastValid := true, lastCode := code }

/-- The answer's result registers. -/
def resOf : Result → Option (Bool × Code × Status)
  | .next t => some t.res
  | _ => none

/-- The answer's `LAST_VALID` and `LAST_CODE`. -/
def lastOf : Result → Option (Bool × Code)
  | .next t => some (t.lastValid, t.lastCode)
  | _ => none

/-- The reason of a refusal. -/
def refusalOf : Result → Option Refusal
  | .refused r => some r
  | _ => none

/-- The next state, if there is one. -/
def nextOf : Result → State
  | .next t => t
  | _ => State.reset

/-- The two elements of a bit's pair: a 0 and a 1 (L1-1). -/
def pairOf (b : Nat) : List Micros := if b = 0 then [1125 / 2, 1125 / 2] else [1125 / 2, 3375 / 2]

/-- A frame's list from its bits, `b(0)` first. -/
def frameOf (bits : List Nat) : List Micros := [9000, 4500] ++ bits.flatMap pairOf ++ [1125 / 2]

/-- The list of L1-1: "00000000 11111111 10110101 01001010", which is address 0x00, its inverse 0xFF, command 0xAD and
its inverse 0x52. -/
def listL11 : List Micros := frameOf
  [0, 0, 0, 0, 0, 0, 0, 0, 1, 1, 1, 1, 1, 1, 1, 1, 1, 0, 1, 1, 0, 1, 0, 1, 0, 1, 0, 0, 1, 0, 1, 0]

/-- The list of L1-4: "10000000 00000011 10110101 01001010", extended address 0xC001. -/
def listL14 : List Micros := frameOf
  [1, 0, 0, 0, 0, 0, 0, 0, 0, 0, 0, 0, 0, 0, 1, 1, 1, 0, 1, 1, 0, 1, 0, 1, 0, 1, 0, 0, 1, 0, 1, 0]

/-! ## WellFormed: an ill-formed term for each check -/

/-- `[100] ++ NEC(0x00, 0x2D)`: absolute index 66 is a 1-bit's space (R122, L2-D). -/
theorem test_wf_refuses_terminator_on_a_one : (Instr.frameNewStd 1 0x00#8 0xFF#8 0x2D#8 0xD2#8).wf = false := by
  decide

/-- Absolute index 66 is the pause of the frame. -/
theorem test_wf_refuses_terminator_on_the_pause : (Instr.frameNewExt 65 0xC001#16 0xAD#8 0x52#8).wf = false := by
  decide

/-- Absolute index 66 is the burst of the frame. -/
theorem test_wf_refuses_terminator_on_the_burst : (Instr.frameNewStd 66 0x00#8 0xFF#8 0xAD#8 0x52#8).wf = false := by
  decide

theorem test_wf_refuses_equal_address_bits : (Instr.frameNewStd 0 0x00#8 0xFE#8 0xAD#8 0x52#8).wf = false := by
  decide

theorem test_wf_refuses_equal_command_bits : (Instr.frameNewStd 0 0x00#8 0xFF#8 0xAD#8 0x53#8).wf = false := by
  decide

theorem test_wf_refuses_equal_command_bits_extended : (Instr.frameNewExt 0 0xC001#16 0x00#8 0x00#8).wf = false := by
  decide

/-- The same frames where the checks pass: command bit 7 is 1, two intervals before the frame, 67 before it. -/
theorem test_wf_accepts : (Instr.frameNewStd 1 0x00#8 0xFF#8 0xAD#8 0x52#8).wf = true ∧
    (Instr.frameNewExt 2 0xC001#16 0x2D#8 0xD2#8).wf = true ∧
    (Instr.frameNewStd 67 0x00#8 0xFF#8 0x2D#8 0xD2#8).wf = true := by
  decide

/-! ## Decoding: words and lists written out from the spec -/

/-- R60: `CMD = 1` with its arguments. -/
theorem test_decode_init : decode false (5 / 16) ⟨1#1, 1#1, 1 / 4⟩ [] = .init true (1 / 4) := by decide +kernel

/-- R60: `CMD = 0`; the list of L1-5 holds no frame. -/
theorem test_decode_decode :
    decode false (5 / 16) ⟨0#1, 0#1, 0⟩ [.us 100, .us 200, .us 4500, .us (1125 / 2)] = .decode := by decide +kernel

/-- L1-1, `P = 0x52ADFF00`. -/
theorem test_decode_frameNewStd :
    decode false (5 / 16) ⟨0#1, 0#1, 0⟩ (listL11.map .us) = .frameNewStd 0 0x00#8 0xFF#8 0xAD#8 0x52#8 := by
  decide +kernel

/-- L1-4, `P = 0x52ADC001`. -/
theorem test_decode_frameNewExt :
    decode true (5 / 16) ⟨0#1, 0#1, 0⟩ (listL14.map .us) = .frameNewExt 0 0xC001#16 0xAD#8 0x52#8 := by
  decide +kernel

/-- R70: `DECODE REPEAT`, and L2-C's `p = 3093.75`, the excluded edge of `W_NEW`. -/
theorem test_decode_frameRepeat :
    decode false (5 / 16) ⟨0#1, 0#1, 0⟩ [.us 9000, .us 2250, .us (1125 / 2)] = .frameRepeat 0 ∧
    decode false (5 / 16) ⟨0#1, 0#1, 0⟩ [.us 9000, .us (12375 / 4)] = .frameRepeat 0 := by
  decide +kernel

/-- R72 with L2-D: the pause selects the row also of `[100] ++ NEC(0x00, 0x2D)`, which is malformed, and of L2-C's short
frame `[9000, 3400]` in the windows' overlap, under each protocol. -/
theorem test_decode_row_by_pause_alone :
    decode false (5 / 16) ⟨0#1, 0#1, 0⟩ (placed 0 (100 :: nominalFrame 0xD22DFF00#32)) =
      .frameNewStd 1 0x00#8 0xFF#8 0x2D#8 0xD2#8 ∧
    decode false (5 / 16) ⟨0#1, 0#1, 0⟩ [.us 9000, .us 3400] = .frameNewStd 0 0#8 0#8 0#8 0#8 ∧
    decode true (5 / 16) ⟨0#1, 0#1, 0⟩ [.us 9000, .us 3400] = .frameNewExt 0 0#16 0#8 0#8 := by
  decide +kernel

/-- A burst with no pause, and a pause in neither window, select no frame row (L2-B, L2-C). -/
theorem test_decode_no_frame_row :
    decode false (5 / 16) ⟨0#1, 0#1, 0⟩ [.us 9000] = .decode ∧
    decode false (5 / 16) ⟨0#1, 0#1, 0⟩ [.us 9000, .us 6000] = .decode := by
  decide +kernel

theorem test_tableWord_rejects_by_name :
    tableTransfer 8 2 = .error .bitsAboveOpcode ∧ tableTransfer 32 (2 ^ 32) = .error .bitsAboveRow ∧
    tableTransfer 0 1 = .error .bitsAboveRow ∧ tableTransfer 16 0 = .error .noSuchWidth := by
  refine ⟨rfl, rfl, rfl, rfl⟩

/-- The encoder's list is the one L1-1 writes out, and L1-4's. -/
theorem test_encode_nominal_lists : necStd 0x00#8 0xAD#8 = listL11 ∧ necExt 0xC001#16 0xAD#8 = listL14 := by
  decide +kernel

/-! ## The instructions -/

/-- R150 on a block with a stored code and an old result. -/
theorem test_init : (let t := nextOf (exec (.init true (1 / 2)) { holdingLast [] 0x1234#24 with resStatus := .malformed })
    (t.cfgExt, t.cfgTol, t.lastValid, t.res) = (true, 1 / 2, false, false, 0#24, .none)) := by
  decide +kernel

/-- R162: INIT while busy is refused. -/
theorem test_init_busy : exec (.init false 0) { State.reset with fsm := .convert } = .refused .hostMoveWhileBusy := rfl

/-- L2-D: trailing intervals are ignored; L2-C: `p = 843.75` is in no window. -/
theorem test_decode : resOf (exec .decode (holding (listL11 ++ [1125 / 2, 1125 / 2, 9000]))) =
      some (true, 0x00AD#24, .okNew) ∧
    resOf (exec .decode (holding [9000, 3375 / 4, 1125 / 2])) = some (false, 0#24, .unclassifiable) := by
  decide +kernel

/-- L2-D: MALFORMED precedes REDUNDANCY_MISMATCH; L2-E: 738.28125 gives a 1. -/
theorem test_decode_edges :
    resOf (exec .decode (holding (listL11.take 51 ++ [3375 / 2] ++ (listL11.drop 52).take 14 ++ [1000]))) =
      some (false, 0#24, .malformed) ∧
    resOf (exec .decode (holding (listL11.take 3 ++ [23625 / 32] ++ listL11.drop 4))) =
      some (false, 0#24, .redundancyMismatch) := by
  decide +kernel

/-- L1-1 as one step of the machine: the host's DECODE command, the list in the buffer. -/
theorem test_frameNewStd_step :
    (let a := step { holding listL11 with host := [.command ⟨0#1, 0#1, 0⟩] }
     (resOf a, lastOf a, (nextOf a).payload)) =
      (some (true, 0x00AD#24, .okNew), some (true, 0x0000AD#24), 0x52ADFF00#32) := by
  decide +kernel

/-- L2-F: `P = 0x53ADFF00`, a command mismatch; L2-D: `[100] ++ NEC(0x00, 0x2D)`, and L1-1 less its last element. -/
theorem test_frameNewStd :
    resOf (exec (.frameNewStd 0 0x00#8 0xFF#8 0xAD#8 0x53#8) (holding (nominalFrame 0x53ADFF00#32))) =
      some (false, 0#24, .redundancyMismatch) ∧
    resOf (exec (.frameNewStd 1 0x00#8 0xFF#8 0x2D#8 0xD2#8) (holding (100 :: nominalFrame 0xD22DFF00#32))) =
      some (false, 0#24, .malformed) ∧
    resOf (exec (.frameNewStd 0 0x00#8 0xFF#8 0xAD#8 0x52#8) (holding (listL11.take 66))) =
      some (false, 0#24, .structShort) := by
  decide +kernel

/-- L1-4 as one step of the machine. -/
theorem test_frameNewExt_step :
    resOf (step { holding listL14 with cfgExt := true, host := [.command ⟨0#1, 0#1, 0⟩] }) =
      some (true, 0xC001AD#24, .okNew) := by
  decide +kernel

/-- L2-F: `P = 0xFF00FFFF` and `P = 0x52ADFE00` under the extended protocol. -/
theorem test_frameNewExt :
    resOf (exec (.frameNewExt 0 0xFFFF#16 0x00#8 0xFF#8) { holding (nominalFrame 0xFF00FFFF#32) with cfgExt := true }) =
      some (true, 0xFFFF00#24, .okNew) ∧
    resOf (exec (.frameNewExt 0 0xFE00#16 0xAD#8 0x52#8) { holding (nominalFrame 0x52ADFE00#32) with cfgExt := true }) =
      some (true, 0xFE00AD#24, .okNew) := by
  decide +kernel

/-- Program 3 step 8: `[20000, 9000, 3000]` with a stored code, as one step of the machine. -/
theorem test_frameRepeat_step :
    (let a := step { holdingLast [20000, 9000, 3000] 0x0000AD#24 with host := [.command ⟨0#1, 0#1, 0⟩] }
     (resOf a, lastOf a)) = (some (true, 0x00AD#24, .okRepeat), some (true, 0x0000AD#24)) := by
  decide +kernel

/-- L1-6: `[9000, 2250]` with no stored code. -/
theorem test_frameRepeat_no_prior :
    resOf (exec (.frameRepeat 0) (holding [9000, 2250])) = some (false, 0#24, .repeatWithoutPrior) := by
  decide +kernel

/-- The host's question on one table word: the very next step runs it. -/
theorem test_withFetchWord :
    resOf (step (State.reset.withFetchWord 32 0x52ADFF00)) = some (true, 0x00AD#24, .okNew) ∧
    (nextOf (step (State.reset.withFetchWord 8 1))).cfgTol = 0 ∧
    resOf (step (State.reset.withFetchWord 0 0)) = some (false, 0#24, .repeatWithoutPrior) := by
  decide +kernel

/-- L2-H: the first LOCATE step of `DECODE REPEAT`, and its last. -/
theorem test_microSteps :
    ((nextOf (step (beginDecode (holding repeatFrame)))).fsm, (nextOf (step (beginDecode (holding repeatFrame)))).start) =
      (.classify, 0) ∧
    resOf (step { holdingLast repeatFrame 0x1234#24 with fsm := .classify }) = some (true, 0x1234#24, .okRepeat) := by
  decide +kernel

/-- R121's examples: the validator's Repeat branch alone. -/
theorem test_validRep :
    validRep (5 / 16) [9000, 2250, 1125 / 2] 0 = some .pass ∧
    validRep (5 / 16) [9000, 3400, 1125 / 2] 0 = some (.fail .malformed) ∧
    validRep (5 / 16) [9000, 2250] 0 = some (.fail .structShort) := by
  decide +kernel

/-! ## Witnesses: states that meet the premises of the statements -/

/-- `DecodeReady` of a list within the contract, in a block that holds it. -/
theorem ready_of {iv : List Micros} {s : State} (h : ∀ q ∈ iv, 0 ≤ q) (hb : s.buffer = iv.map .us)
    (hf : s.fsm = .idle) (hr : s.ready = true) (hl : iv.length ≤ s.maxLen) : DecodeReady iv s :=
  ⟨hf, hr, by simpa [hb] using hl, by rw [hb]; exact durations_us h⟩

theorem ready_nominal (p : Payload) (s : State) (hb : s.buffer = (nominalFrame p).map .us)
    (hf : s.fsm = .idle) (hr : s.ready = true) (hl : 67 ≤ s.maxLen) : DecodeReady (nominalFrame p) s :=
  ready_of nominalFrame_nonneg hb hf hr (by simpa using hl)

/-- A list whose first element is a nominal burst starts its frame there. -/
theorem burst_first (p : Payload) : FirstBurst (5 / 16) (nominalFrame p) 0 :=
  ⟨⟨9000, rfl, by decide +kernel⟩, fun _ h => absurd h (Nat.not_lt_zero _)⟩

theorem witness_PowerOnResetIsInitWithDefaults :
    ({ State.reset with fsm := .convert, host := [.powerOnReset] } : State).host = .powerOnReset :: [] ∧
    State.reset.fsm = .idle := ⟨rfl, rfl⟩

theorem witness_InitConfiguresAndForgets :
    (holdingLast repeatFrame 0x1234#24).fsm = .idle ∧
    (∃ t, exec (.frameRepeat 0) (holdingLast [] 0x1234#24) = .next t) ∧
    ({ State.reset with fsm := .convert } : State).fsm ≠ .idle := ⟨rfl, ⟨_, rfl⟩, by decide⟩

theorem witness_ResetEnablesDecode :
    ({ State.reset with ready := false, host := [.powerOnReset] } : State).host = .powerOnReset :: [] ∧
    ({ State.reset with ready := false } : State).fsm = .idle ∧
    ∃ t, exec (.init true 0) { State.reset with ready := false } = .next t := ⟨rfl, rfl, _, rfl⟩

/-- Both kinds of step: one that keeps the configuration, and the two that change it. -/
theorem witness_ConfigurationChangesOnlyByInit :
    (∃ t, step (holding []) = .next t) ∧
    (∃ t, step { State.reset with host := [.command ⟨1#1, 1#1, 1 / 2⟩] } = .next t ∧ t.cfgTol = 1 / 2) ∧
    (∃ t, step { State.reset with cfgExt := true, host := [.powerOnReset] } = .next t ∧ t.cfgExt = false) :=
  ⟨⟨_, rfl⟩, ⟨_, rfl, rfl⟩, ⟨_, rfl, rfl⟩⟩

/-- Tolerance 0 and a negative one; a tolerance above 1 at the ends of the range. -/
theorem witness_DegenerateTolerances :
    ((0 : Micros) ≤ 0 ∧ (0 : Micros) < 9000) ∧
    (DecodeReady (nominalFrame 0x52ADFF00#32) { holding (nominalFrame 0x52ADFF00#32) with cfgTol := -1 / 2 } ∧
      ({ holding (nominalFrame 0x52ADFF00#32) with cfgTol := -1 / 2 } : State).cfgTol ≤ 0) ∧
    ((1 : Micros) < 2 ∧ (0 : Micros) < 9000 ∧ (0 : Micros) ≤ 0 ∧ (0 : Micros) ≤ 9000) :=
  ⟨by norm_num, ⟨ready_nominal _ _ rfl rfl rfl (by decide), by norm_num [holding]⟩, by norm_num⟩

/-- Just inside `W_BURST` (6187.51, L2-A) and just inside `W_SHORT` (386.72). -/
theorem witness_WindowOverlaps :
    inBurst (5 / 16) (618751 / 100) = true ∧ inShort (5 / 16) (38672 / 100) = true := by decide +kernel

theorem witness_ScalingLaw : (0 : Micros) < 9000 ∧ (0 : Micros) < 7 / 10 := by norm_num

/-- L2-B: a burst at index 1, and a list with none. -/
theorem witness_LocatorFindsFirstBurst :
    (DecodeReady [20000, 9000, 2250] (holding [20000, 9000, 2250]) ∧
      FirstBurst (holding [20000, 9000, 2250]).cfgTol [20000, 9000, 2250] 1) ∧
    (DecodeReady [12375 / 2] (holding [12375 / 2]) ∧
      ∀ v ∈ [(12375 / 2 : Micros)], ¬ |v - 9000| < 9000 * (holding [12375 / 2]).cfgTol) :=
  ⟨⟨by unfold DecodeReady; decide +kernel, locate_eq_some (by decide +kernel)⟩,
    by unfold DecodeReady; decide +kernel, by decide +kernel⟩

/-- Two lists that agree up to the burst and differ after it. -/
theorem witness_LocatorReadsOnlyItsPrefix :
    locate (5 / 16) [20000, 9000, 2250] = some 1 ∧
    ∀ i ≤ 1, ([20000, 9000, 2250] : List Micros)[i]? = ([20000, 9000, 9500] : List Micros)[i]? := by
  decide +kernel

/-- L2-C: `p = 3400` in the overlap; a list of each class, each with a pause. -/
theorem witness_ClassifierTestsNewFirst :
    ((12375 / 4 : Micros) < 3400 ∧ (3400 : Micros) < 14625 / 4) ∧
    (∀ p ∈ ([3400, 2250, 6000] : List Micros), DecodeReady [9000, p] (holding [9000, p]) ∧
      locate (5 / 16) [9000, p] = some 0) ∧
    PauseIsNew (5 / 16) [9000, 3400] 0 ∧ PauseIsRepeat (5 / 16) [9000, 2250] 0 ∧
    PauseIsInvalid (5 / 16) [9000, 6000] 0 :=
  ⟨by norm_num, by unfold DecodeReady; decide +kernel, ⟨3400, rfl, by decide +kernel⟩,
    ⟨2250, rfl, by decide +kernel⟩, ⟨6000, rfl, by decide +kernel⟩⟩

/-- L2-B: `[9000]`. -/
theorem witness_MissingPauseIsStructShort :
    DecodeReady [9000] (holding [9000]) ∧ FirstBurst (5 / 16) [9000] 0 ∧ 0 + 1 = ([9000] : List Micros).length :=
  ⟨by unfold DecodeReady; decide +kernel, locate_eq_some (by decide +kernel), rfl⟩

/-- The two sides of the count, and the three verdicts of a full one. -/
theorem witness_NewValidatorChecksInOrder :
    (listL11.take 66).length - 0 < 67 ∧ 67 ≤ listL11.length - 0 ∧
    (inNew (5 / 16) 2250 = false) ∧ (inNew (5 / 16) 4500 = true ∧ inShort (5 / 16) (12375 / 32) = false) ∧
    (inNew (5 / 16) 4500 = true ∧ inShort (5 / 16) 400 = true) := by decide +kernel

theorem witness_RepeatValidatorChecksInOrder :
    ([9000, 2250] : List Micros).length - 0 < 3 ∧ 3 ≤ repeatFrame.length - 0 ∧
    ¬ |(3400 : Micros) - 2250| < 2250 * (5 / 16) ∧
    (|(2250 : Micros) - 2250| < 2250 * (5 / 16) ∧ inShort (5 / 16) 1000 = false) ∧
    (|(2250 : Micros) - 2250| < 2250 * (5 / 16) ∧ inShort (5 / 16) 400 = true) := by decide +kernel

/-- One interval of 100 before a nominal frame. -/
theorem ready_afterNoise (p : Payload) : DecodeReady (100 :: nominalFrame p) (holding (100 :: nominalFrame p)) := by
  refine ready_of (fun q hq => ?_) rfl rfl rfl (by simp [holding, State.reset, Config.params])
  obtain rfl | hq := List.mem_cons.mp hq
  · norm_num
  · exact nominalFrame_nonneg q hq

/-- L2-D: `[100] ++ NEC(0x00, 0x2D)`, where `b(31) = 1`, and `[100] ++ NEC(0x00, 0xAD)`, where it is 0. -/
theorem witness_TerminatorIndexIsAbsolute :
    inBurst (5 / 16) 100 = false ∧
    ((holding (100 :: nominalFrame 0xD22DFF00#32)).cfgTol = 5 / 16 ∧
      DecodeReady (100 :: nominalFrame 0xD22DFF00#32) (holding (100 :: nominalFrame 0xD22DFF00#32))) ∧
    ((holding (100 :: nominalFrame 0x52ADFF00#32)).cfgTol = 5 / 16 ∧
      DecodeReady (100 :: nominalFrame 0x52ADFF00#32) (holding (100 :: nominalFrame 0x52ADFF00#32))) :=
  ⟨by decide +kernel, ⟨rfl, ready_afterNoise _⟩, rfl, ready_afterNoise _⟩

/-- L2-D: `NEC(0x00, 0xAD) ++ [562.5, 562.5, 9000]`. -/
theorem witness_TrailingIntervalsAreIgnored :
    DecodeReady listL11 (holding listL11) ∧
    DecodeReady (listL11 ++ [1125 / 2, 1125 / 2, 9000])
      { holding listL11 with buffer := (listL11 ++ [1125 / 2, 1125 / 2, 9000]).map .us } ∧
    FirstBurst (holding listL11).cfgTol listL11 0 ∧ PauseIsNew (holding listL11).cfgTol listL11 0 ∧
    67 ≤ listL11.length - 0 := by
  refine ⟨by unfold DecodeReady; decide +kernel, by unfold DecodeReady; decide +kernel,
    locate_eq_some (by decide +kernel), ⟨4500, rfl, by decide +kernel⟩, by decide⟩

/-- The cut after the burst, and before the terminator. -/
theorem witness_SplitFrameIsNotDecoded :
    ∀ n ∈ [1, 66], 1 ≤ n ∧ n < 67 ∧
      DecodeReady ((nominalFrame 0x52ADFF00#32).take n) (holding ((nominalFrame 0x52ADFF00#32).take n)) ∧
      DecodeReady ((nominalFrame 0x52ADFF00#32).drop n) (holding ((nominalFrame 0x52ADFF00#32).drop n)) := by
  unfold DecodeReady
  decide +kernel

/-- A structurally valid New frame, and its payload, both checks passing (L1-1). -/
theorem witness_NewFrame :
    DecodeReady listL11 (holding listL11) ∧ FirstBurst (holding listL11).cfgTol listL11 0 ∧
    PauseIsNew (holding listL11).cfgTol listL11 0 ∧ CountAndTerminatorOk (holding listL11).cfgTol listL11 0 ∧
    PayloadAt (holding listL11).cfgTol listL11 0 0x52ADFF00#32 ∧ ChecksPass (holding listL11).cfgExt 0x52ADFF00#32 := by
  refine ⟨by unfold DecodeReady; decide +kernel, locate_eq_some (by decide +kernel), ⟨4500, rfl, by decide +kernel⟩,
    ⟨by decide, 1125 / 2, rfl, by decide +kernel⟩, ?_, checksPass_iff.mp (by decide)⟩
  obtain ⟨w, hw, hp⟩ := convert_spec (tol := 5 / 16) (iv := listL11) (s := 0) (by decide)
  have e : convert (5 / 16) listL11 0 = some 0x52ADFF00#32 := by decide +kernel
  rw [e, Option.some.injEq] at hw
  exact hw ▸ hp

theorem witness_ConverterSamplesSecondElements : 67 ≤ listL11.length - 0 ∧
    DecodeReady listL11 (holding listL11) ∧ FirstBurst (holding listL11).cfgTol listL11 0 ∧
    PauseIsNew (holding listL11).cfgTol listL11 0 ∧ CountAndTerminatorOk (holding listL11).cfgTol listL11 0 :=
  ⟨by decide, witness_NewFrame.1, witness_NewFrame.2.1, witness_NewFrame.2.2.1, witness_NewFrame.2.2.2.1⟩

/-- A valid outcome with the value 0, which the integer view tells from -1 (R144). -/
theorem witness_IntegerViewNeverCollides :
    ({ State.reset with resValid := true, resStatus := .okNew } : State).resValid = true := rfl

theorem witness_DecodeOutcomeTable : DecodeReady [] (holding []) := by
  unfold DecodeReady
  decide +kernel

/-- Each outcome of the table is some DECODE's: the lists of L1-6, L2-B, L2-C, L2-D and L2-F. -/
theorem witness_DecodeOutcomeTable_errors :
    resOf (exec .decode (holding [])) = some (false, 0#24, .noLeadingBurst) ∧
    resOf (exec .decode (holding [9000])) = some (false, 0#24, .structShort) ∧
    resOf (exec .decode (holding [9000, 4500])) = some (false, 0#24, .structShort) ∧
    resOf (exec .decode (holding [9000, 6000])) = some (false, 0#24, .unclassifiable) ∧
    resOf (exec .decode (holding [9000, 2250])) = some (false, 0#24, .repeatWithoutPrior) := by
  decide +kernel

theorem witness_DecodeOutcomeTable_frames :
    resOf (exec .decode (holdingLast [9000, 2250] 0x1234#24)) = some (true, 0x1234#24, .okRepeat) ∧
    resOf (exec .decode (holding (100 :: nominalFrame 0xD22DFF00#32))) = some (false, 0#24, .malformed) ∧
    resOf (exec .decode (holding (nominalFrame 0x52ADFE00#32))) = some (false, 0#24, .redundancyMismatch) ∧
    resOf (exec .decode (holding (nominalFrame 0xFF00FF00#32))) = some (true, 0#24, .okNew) := by
  decide +kernel

theorem witness_NewFrameIsCommitted : ∃ t, exec .decode (holding listL11) = .next t ∧ t.resStatus = .okNew := by
  obtain ⟨hr, hb, hp, hc, hw, hk⟩ := witness_NewFrame
  exact ⟨_, execDecode_new hr hb hp hc hw, by rw [checkPayload_pass hk]; rfl⟩

/-- A form that ends OK_NEW, one that does not, and the collector's move. -/
theorem witness_LastCodeWrittenOnlyByNewDecode :
    (∃ t, exec (.init false 0) State.reset = .next t) ∧
    (∃ t, exec .decode (holding listL11) = .next t ∧ t.resStatus = .okNew) ∧
    (∃ t, exec (.frameRepeat 0) (holding []) = .next t ∧ t.resStatus ≠ .okNew) ∧
    (∃ t, step { State.reset with host := [.fillBuffer []] } = .next t) :=
  ⟨⟨_, rfl⟩, witness_NewFrameIsCommitted, ⟨_, rfl, by decide⟩, ⟨_, rfl⟩⟩

/-- With a stored code and without one. -/
theorem witness_RepeatReturnsLastCode :
    DecodeReady [9000, 2250, 5000] (holdingLast [9000, 2250, 5000] 0x1234#24) ∧
    DecodeReady [9000, 2250, 5000] (holding [9000, 2250, 5000]) ∧
    FirstBurst (5 / 16) [9000, 2250, 5000] 0 ∧ PauseIsRepeat (5 / 16) [9000, 2250, 5000] 0 :=
  ⟨by unfold DecodeReady; decide +kernel, by unfold DecodeReady; decide +kernel, locate_eq_some (by decide +kernel),
    ⟨2250, rfl, by decide +kernel⟩⟩

/-- A DECODE form that completes with an error; it serves the three statements about every form. -/
theorem witness_FinishEndsEveryDecode : isDecodeForm (.frameRepeat 0) = true ∧
    ∃ t, exec (.frameRepeat 0) (holding []) = .next t ∧ t.resValid = false := ⟨rfl, _, rfl, rfl⟩

theorem witness_ErrorsKeepLastCodeAndConfiguration : isDecodeForm .decode = true ∧
    ∃ t, exec .decode (holdingLast [] 0x1234#24) = .next t ∧ t.resValid = false := ⟨rfl, _, rfl, rfl⟩

theorem witness_DecodeFormsFrame : isDecodeForm (.frameNewStd 0 0x00#8 0xFF#8 0xAD#8 0x52#8) = true ∧
    (∃ t, exec (.frameNewStd 0 0x00#8 0xFF#8 0xAD#8 0x52#8) (holding []) = .next t) ∧
    ∃ t, exec (.frameRepeat 0) (holding []) = .next t := ⟨rfl, ⟨_, rfl⟩, _, rfl⟩

/-- L1-9. -/
theorem witness_NewDecodeIsIdempotent :
    DecodeReady listL11 (holding listL11) ∧ FirstBurst (holding listL11).cfgTol listL11 0 ∧
    PauseIsNew (holding listL11).cfgTol listL11 0 ∧
    ∃ t, exec .decode (holding listL11) = .next t ∧ t.resStatus = .okNew :=
  ⟨witness_NewFrame.1, witness_NewFrame.2.1, witness_NewFrame.2.2.1, witness_NewFrameIsCommitted⟩

/-- L1-1 under each protocol, with the complements right and with each of them wrong; a short list and a malformed one at
the two sides of the count. -/
theorem witness_StandardFrameCompletes :
    (DecodeReady listL11 (holding listL11) ∧ PauseIsNew (holding listL11).cfgTol listL11 0 ∧
      CountAndTerminatorOk (holding listL11).cfgTol listL11 0 ∧ (holding listL11).cfgExt = false ∧
      0x00#8 ^^^ 0xFF#8 = 0xFF#8 ∧ 0xAD#8 ^^^ 0x52#8 = 0xFF#8 ∧ 0xAD#8 ^^^ 0x53#8 ≠ 0xFF#8 ∧
      0x00#8 ^^^ 0xFE#8 ≠ 0xFF#8) ∧
    DecodeReady listL11 { holding listL11 with cfgExt := true } ∧
    (DecodeReady (listL11.take 66) (holding (listL11.take 66)) ∧ (listL11.take 66).length - 0 < 67) ∧
    (DecodeReady (100 :: nominalFrame 0xD22DFF00#32) (holding (100 :: nominalFrame 0xD22DFF00#32)) ∧
      67 ≤ (100 :: nominalFrame 0xD22DFF00#32).length - 1 ∧
      ¬ (PauseIsNew (5 / 16) (100 :: nominalFrame 0xD22DFF00#32) 1 ∧
        CountAndTerminatorOk (5 / 16) (100 :: nominalFrame 0xD22DFF00#32) 1)) := by
  obtain ⟨hr, -, hp, hc, -, -⟩ := witness_NewFrame
  refine ⟨⟨hr, hp, hc, rfl, by decide, by decide, by decide, by decide⟩, hr, ⟨?_, by decide⟩, ready_afterNoise _,
    by simp, ?_⟩
  · unfold DecodeReady; decide +kernel
  · rintro ⟨-, -, v, hv, hs⟩
    have e : (100 :: nominalFrame 0xD22DFF00#32)[66]? = some (3375 / 2) := by decide +kernel
    have hw : win (5 / 16) (3375 / 2) Config.params.tShort Config.params.tShort = false := by decide +kernel
    rw [params_idxTermNew, e, Option.some.injEq] at hv
    rw [← hv, hw] at hs
    exact absurd hs (by decide)

/-- L1-4, with the fields of both kinds; the short and malformed lists are those of `witness_StandardFrameCompletes`. -/
theorem witness_ExtendedFrameCompletes :
    (DecodeReady listL14 { holding listL14 with cfgExt := true } ∧ DecodeReady listL14 (holding listL14)) ∧
    (PauseIsNew (5 / 16) listL14 0 ∧ CountAndTerminatorOk (5 / 16) listL14 0) ∧
    0xAD#8 ^^^ 0x52#8 = 0xFF#8 ∧ (0xFF00#16).extractLsb' 0 8 ^^^ (0xFF00#16).extractLsb' 8 8 = 0xFF#8 ∧
    (0xC001#16).extractLsb' 0 8 ^^^ (0xC001#16).extractLsb' 8 8 ≠ 0xFF#8 ∧ 0x00#8 ^^^ 0x00#8 ≠ 0xFF#8 :=
  ⟨by unfold DecodeReady; decide +kernel, ⟨⟨4500, rfl, by decide +kernel⟩, by decide, 1125 / 2, rfl, by decide +kernel⟩,
    by decide, by decide, by decide, by decide⟩

theorem witness_RepeatFrameCompletes :
    (DecodeReady [] (holdingLast [] 0x1234#24) ∧ (holdingLast [] 0x1234#24).lastValid = true) ∧
    (DecodeReady [] (holding []) ∧ (holding []).lastValid = false) := by
  unfold DecodeReady
  decide +kernel

theorem witness_FrameFormsAreDecode : decodeCommand.cmd = 0#1 := rfl

theorem witness_MicroStepsRealiseDecode :
    (holding listL11).fsm = .idle ∧ (holding listL11).host = [] ∧
    ∃ t, exec .decode (holding listL11) = .next t ∧ t.resStatus = .okNew := ⟨rfl, rfl, witness_NewFrameIsCommitted⟩

theorem witness_IdleHoldsWithoutCommand : State.reset.fsm = .idle ∧ State.reset.host = [] := ⟨rfl, rfl⟩

theorem witness_HostMovesWhileBusyAreRefused :
    ({ State.reset with fsm := .locate, host := [.command decodeCommand] } : State).fsm ≠ .idle ∧
    ({ State.reset with fsm := .commit, host := [.fillBuffer []] } : State).fsm ≠ .idle := by decide

/-- One state for each item of R212: one element too many, a NaN, an infinity, a negative value, busy, not reset. -/
theorem witness_ContractBreachesAreRefused :
    ({ holding listL11 with maxLen := 66 } : State).maxLen = 66 ∧ listL11.length = 67 ∧
    refusalOf (exec .decode { holding listL11 with maxLen := 66 }) = some .listTooLong ∧
    (∀ x ∈ [Interval.nan, .inf true, .inf false, .us (-1)],
      refusalOf (exec .decode { State.reset with buffer := [.us 9000, x] }) = some .intervalOutOfDomain) ∧
    refusalOf (exec .decode { State.reset with fsm := .locate }) = some .hostMoveWhileBusy ∧
    refusalOf (exec .decode { State.reset with ready := false }) = some .decodeBeforeReset := by
  decide +kernel

theorem witness_StepRunsTheDecodedCommand :
    ({ holding listL14 with host := [.command decodeCommand] } : State).host = .command decodeCommand :: [] ∧
    ({ State.reset with host := [.fillBuffer [.us 9000]] } : State).fsm = .idle := ⟨rfl, rfl⟩

/-- The invariant in reset, and in a busy state in the middle of CONVERT. -/
theorem witness_StepIsSafe :
    State.reset.Inv ∧
    ({ holding listL11 with fsm := .convert, mtype := .newMsg, bitK := 31#6, start := 0 } : State).Inv := by
  have hc : State.CapacityInv State.reset := by unfold State.CapacityInv; decide
  exact ⟨⟨⟨rfl, fun _ => rfl, by decide⟩, fun h => absurd h (by decide), trivial, hc⟩,
    ⟨⟨rfl, fun _ => rfl, by decide⟩, fun h => absurd h (by decide), ⟨by decide, by decide, rfl⟩, hc⟩⟩

/-- Two blocks that differ in scratch registers and in a `LAST_CODE` that is not valid. -/
theorem witness_UnspecifiedRegistersAreNeverObserved :
    SameSpecified (holding listL11)
      { holding listL11 with lastCode := 7#24, payload := 0xFFFFFFFF#32, scanI := 5, start := 9, mtype := .repeatMsg } :=
  ⟨rfl, rfl, rfl, rfl, rfl, fun h => absurd h (by decide), rfl, rfl, rfl, rfl, rfl, rfl, rfl⟩

/-- L1-1 with its first mark, index 2, replaced by 5000: a DECODE does not read it. -/
theorem witness_UnreadElementsDoNotMatter :
    DecodeReady listL11 (holding listL11) ∧
    DecodeReady (listL11.set 2 5000) { holding listL11 with buffer := (listL11.set 2 5000).map .us } ∧
    listL11.length = (listL11.set 2 5000).length ∧
    (∀ i, Reads (holding listL11).cfgTol listL11 i → listL11[i]? = (listL11.set 2 5000)[i]?) := by
  refine ⟨by unfold DecodeReady; decide +kernel, by unfold DecodeReady; decide +kernel, by simp, fun i h => ?_⟩
  have hl : locate (holding listL11).cfgTol listL11 = some 0 := by decide +kernel
  have hne : i ≠ 2 := by
    rintro rfl
    simp only [Reads, hl, params_idxTermNew, params_nBits, sampleIndex_eq] at h
    obtain h | ⟨-, -, h | ⟨k, -, h⟩⟩ := h <;> omega
  rw [List.getElem?_set_ne (Ne.symm hne)]

theorem witness_DecodeEncodeRoundTrip : (0 : Micros) < 1 / 2 ∧ (1 / 2 : Micros) ≤ 1 / 2 := ⟨by norm_num, le_refl _⟩

/-- A list for each clause: no burst, each class of pause, no pause. -/
theorem witness_PauseAndConfigurationSelectTheRow :
    ((0#1 : BitVec 1) = 0#1 ∧ durations ([9000, 3400].map .us) = some [9000, 3400]) ∧
    (∀ v ∈ ([100, 200] : List Micros), win (5 / 16) v Config.params.tBurst Config.params.tBurst = false) ∧
    FirstBurst (5 / 16) [9000, 3400] 0 ∧ PauseIsNew (5 / 16) [9000, 3400] 0 ∧
    FirstBurst (5 / 16) [9000, 2250] 0 ∧ PauseIsRepeat (5 / 16) [9000, 2250] 0 ∧
    FirstBurst (5 / 16) [9000, 6000] 0 ∧ PauseIsInvalid (5 / 16) [9000, 6000] 0 ∧
    FirstBurst (5 / 16) [9000] 0 ∧ ([9000] : List Micros).length = 0 + 1 :=
  ⟨by decide +kernel, by decide +kernel, locate_eq_some (by decide +kernel), ⟨3400, rfl, by decide +kernel⟩,
    locate_eq_some (by decide +kernel), ⟨2250, rfl, by decide +kernel⟩, locate_eq_some (by decide +kernel),
    ⟨6000, rfl, by decide +kernel⟩, locate_eq_some (by decide +kernel), rfl⟩

/-- Both protocols, at the largest tolerance of the statement (L2-G). -/
theorem witness_NominalFrameRoundTrip :
    DecodeReady (necStd 0x00#8 0xAD#8) { holding (necStd 0x00#8 0xAD#8) with cfgTol := 2 } ∧
    DecodeReady (necExt 0xC001#16 0xAD#8) { holding (necExt 0xC001#16 0xAD#8) with cfgTol := 2, cfgExt := true } :=
  ⟨ready_nominal _ _ rfl rfl rfl (by decide), ready_nominal _ _ rfl rfl rfl (by decide)⟩

/-- L1-7: the New frame at 7/10 and the Repeat frame at 13/10. -/
theorem witness_NominalFramesAreScaleInvariant :
    (11 / 16 : Micros) < 7 / 10 ∧ (13 / 10 : Micros) < 21 / 16 ∧
    DecodeReady (nominalFrame 0x52ADFF00#32) (holding (nominalFrame 0x52ADFF00#32)) ∧
    DecodeReady ((nominalFrame 0x52ADFF00#32).map (7 / 10 * ·)) { holding (nominalFrame 0x52ADFF00#32) with
      buffer := ((nominalFrame 0x52ADFF00#32).map (7 / 10 * ·)).map .us } ∧
    DecodeReady (repeatFrame.map (13 / 10 * ·)) { holding repeatFrame with
      buffer := (repeatFrame.map (13 / 10 * ·)).map .us } := by
  unfold DecodeReady
  decide +kernel

end Sys2Proof.Tests
end

section
/-! What a step is when the host's next move is a command or the collector's (00_scope.md R7; 20_memory.md R49), and the
statement that a step runs the decoded command. The step without a move is `step_noMove`. -/

namespace Sys2Proof.Machine

variable {s : State} {rest : List HostMove}

/-- R7, R60: a command is decoded under the state before the step, and executed with the move taken off. -/
theorem step_command {c : Command} (hh : s.host = .command c :: rest) :
    step s = exec (decode s.cfgExt s.cfgTol c s.buffer) { s with host := rest } := by
  simp only [step, hh]

theorem step_fillBuffer {iv : Memory} (hh : s.host = .fillBuffer iv :: rest) :
    step s = fillBuffer iv { s with host := rest } := by
  simp only [step, hh]

/-- R40, R62: an idle block accepts any content, and nothing but the buffer changes. -/
theorem fillBuffer_idle (iv : Memory) (hf : s.fsm = .idle) : fillBuffer iv s = .next { s with buffer := iv } :=
  if_pos hf

/-- Settles O42, from the rules of the two moves. -/
theorem stepRunsTheDecodedCommand : Obligations.StepRunsTheDecodedCommand := by
  refine ⟨fun s c rest i hh hi => ?command, fun s iv rest hh hf => ?fill⟩
  case command =>
    rw [step_command hh, hi]
  case fill =>
    have hidle : ({ s with host := rest } : State).fsm = .idle := hf
    rw [step_fillBuffer hh, fillBuffer_idle iv hidle]

end Sys2Proof.Machine
end

section
/-! The invariant of the block (10_state.md R23, R24, R26; 20_memory.md R42, R43): what one micro-step, one instruction
and one move of the host can do, and that each keeps the invariant. The same rules say who writes the configuration and
`LAST_*` (R21 to R23, R227). -/

namespace Sys2Proof.Machine

variable {s t : State} {iv : List Micros} {rest : List HostMove}

/-! ## The host's moves -/

theorem step_powerOnReset (hh : s.host = .powerOnReset :: rest) :
    step s = .next (powerOnReset { s with host := rest }) := by
  simp only [step, hh]

/-- Everything the collector's move can answer, in any state. -/
theorem fillBuffer_cases (m : Memory) (s : State) :
    (s.fsm = .idle ∧ fillBuffer m s = .next { s with buffer := m }) ∨
    (s.fsm ≠ .idle ∧ fillBuffer m s = .refused .hostMoveWhileBusy) := by
  by_cases h : s.fsm = .idle
  · exact .inl ⟨h, fillBuffer_idle m h⟩
  · exact .inr ⟨h, if_neg h⟩

theorem fillBuffer_next {m : Memory} (h : fillBuffer m s = .next t) : t = { s with buffer := m } := by
  obtain ⟨-, e⟩ | ⟨-, e⟩ := fillBuffer_cases m s
  · simpa [e] using h.symm
  · simp [e] at h

theorem execInit_next {ext : Bool} {tol : Micros} (h : exec (.init ext tol) s = .next t) :
    t = initialise ext tol s := by
  obtain ⟨-, e⟩ | ⟨-, e⟩ := execInit_cases ext tol s
  · simpa [e] using h.symm
  · simp [e] at h

/-! ## What a micro-step can do -/

theorem ScratchOnly.refl (s : State) : ScratchOnly s s := scratchOnly_update s s.scanI s.start s.mtype s.payload s.bitK

theorem commitPayload_effect (s : State) : DecodeEffect s (commitPayload s) :=
  ⟨(ScratchOnly.refl s).1, rfl, .inl ⟨rfl, rfl, rfl⟩⟩

/-- The status of a structural failure is an error's. -/
theorem validNew_fail {tol : Micros} {b : Nat} {e : Status} (h : validNew tol iv b = some (.fail e)) :
    e.valid = false := by
  by_cases hn : iv.length - b < 67
  · simp only [validNew_short hn, Option.some.injEq, Verdict.fail.injEq] at h
    exact h ▸ rfl
  · obtain ⟨p, q, -, -, hv⟩ := validNew_full (tol := tol) (Nat.not_lt.mp hn)
    rw [hv, Option.some.injEq] at h
    split_ifs at h
    · exact Verdict.fail.inj h ▸ rfl
    · exact Verdict.fail.inj h ▸ rfl

/-- A DECODE in progress stays in progress: the host-readable registers and `LAST_*` are as they were. -/
def Continues (s t : State) : Prop := ScratchOnly s t ∧ t.res = s.res

theorem continues_update (s : State) (f : Fsm) (a b : Nat) (m : MType) (w : Payload) (k : BitVec 6) :
    Continues s { s with fsm := f, scanI := a, start := b, mtype := m, payload := w, bitK := k } :=
  ⟨⟨⟨⟨rfl, rfl⟩, fun _ => rfl, rfl, rfl, rfl, rfl⟩, rfl, rfl⟩, rfl⟩

/-- What the block's own move can answer: it ends the DECODE, or goes on with it and keeps the indices in range; it
faults only where they are not (R42). -/
def MicroOutcome (s : State) : Result → Prop
  | .next t => DecodeEffect s t ∨ (Continues s t ∧ (s.BusyInv → t.BusyInv))
  | .fault _ => ¬ s.BusyInv
  | .refused _ => True

theorem DecodeEffect.micro (h : DecodeEffect s t) : MicroOutcome s (.next t) := .inl h

theorem Continues.micro (h : Continues s t) (hb : s.BusyInv → t.BusyInv) : MicroOutcome s (.next t) := .inr ⟨h, hb⟩

/-- R154: the scan stops at the end of the list, at the burst, or goes on to the next element. -/
theorem microLocate_outcome (hf : s.fsm = .locate) (hl : iv.length = s.buffer.length) :
    MicroOutcome s (microLocate iv s) := by
  by_cases hi : s.scanI < iv.length
  · have hv : iv[s.scanI]? = some iv[s.scanI] := List.getElem?_eq_getElem hi
    rw [hl] at hi
    cases hb : inBurst s.cfgTol iv[s.scanI] with
    | true =>
      rw [microLocate_found hv hb]
      exact (continues_update s .classify s.scanI s.scanI s.mtype s.payload s.bitK).micro fun _ => hi
    | false =>
      rw [microLocate_skip hv hb]
      refine (continues_update s s.fsm (s.scanI + 1) s.start s.mtype s.payload s.bitK).micro fun _ => ?_
      simpa [State.BusyInv, hf] using hi
  · rw [microLocate_end (Nat.not_lt.mp hi)]
    exact ((ScratchOnly.refl s).failWith rfl).micro

/-- R155, R156: only a New pause, which the list then holds, goes on. -/
theorem microClassify_outcome (hl : iv.length = s.buffer.length) : MicroOutcome s (microClassify iv s) := by
  have hm (m : MType) : ScratchOnly s { s with mtype := m } :=
    scratchOnly_update s s.scanI s.start m s.payload s.bitK
  unfold microClassify
  split
  · exact ((hm .invalid).failWith rfl).micro
  · next p hp =>
    have hi : s.start + 1 < s.buffer.length := hl ▸ (List.getElem?_eq_some_iff.mp hp).1
    split
    · exact (continues_update s .validate s.scanI s.start .newMsg s.payload s.bitK).micro fun _ => ⟨hi, rfl⟩
    · exact (hm .repeatMsg).repeatPath.micro
    · exact ((hm .invalid).failWith rfl).micro

/-- R157: only a frame with a full count goes on. -/
theorem microValidate_outcome (hf : s.fsm = .validate) (hl : iv.length = s.buffer.length) :
    MicroOutcome s (microValidate iv s) := by
  unfold microValidate
  split
  · next hv => exact absurd hv validNew_ne_none
  · next e hv => exact ((ScratchOnly.refl s).failWith (validNew_fail hv)).micro
  · next hv =>
    have hn := validNew_pass hv
    refine (continues_update s .convert s.scanI s.start s.mtype s.payload 0#6).micro fun hb => ?_
    simp only [State.BusyInv, hf] at hb
    exact ⟨by simp only [params_nNew]; omega, show (0#6).toNat < 32 by decide, hb.2⟩

/-- R158: with 67 elements from `START` on, the samples of all 32 bits are in the list. -/
theorem microConvert_outcome (hf : s.fsm = .convert) (hl : iv.length = s.buffer.length) :
    MicroOutcome s (microConvert iv s) := by
  have hinv : s.BusyInv ↔ s.start + 67 ≤ s.buffer.length ∧ s.bitK.toNat < 32 ∧ s.mtype = .newMsg := by
    simp [State.BusyInv, hf]
  by_cases hin : s.bitK.toNat < 32 ∧ s.start + 3 + 2 * s.bitK.toNat < iv.length
  · obtain ⟨hk, hi⟩ := hin
    rw [microConvert_bit hk (List.getElem?_eq_getElem hi)]
    refine (continues_update s _ s.scanI s.start s.mtype _ _).micro fun hb => ?_
    obtain ⟨hn, -, hm⟩ := hinv.mp hb
    by_cases h31 : s.bitK.toNat = 31
    · simpa [State.BusyInv, h31] using hm
    · have hk' : (s.bitK + 1#6).toNat < 32 := by rw [toNat_succ_bitK hk]; omega
      simpa [State.BusyInv, h31] using ⟨hn, hk', hm⟩
  · have hout : ¬ s.BusyInv := fun hb => hin (by obtain ⟨hn, hk, -⟩ := hinv.mp hb; omega)
    unfold microConvert
    split
    · next hk =>
      have hge : iv.length ≤ s.start + 3 + 2 * s.bitK.toNat := Nat.not_lt.mp fun hi => hin ⟨hk, hi⟩
      rw [sampleIndex_eq, List.getElem?_eq_none hge]
      exact hout
    · exact hout

/-- R159: a payload that passes both checks goes on to COMMIT. -/
theorem microCheck_outcome (hf : s.fsm = .check) : MicroOutcome s (microCheck s) := by
  obtain ⟨-, e⟩ | ⟨-, e⟩ := microCheck_cases s <;> rw [e]
  · refine (continues_update s .commit s.scanI s.start s.mtype s.payload s.bitK).micro fun hb => ?_
    simpa only [State.BusyInv, hf] using hb
  · exact ((ScratchOnly.refl s).failWith rfl).micro

theorem microStepOn_outcome (hl : iv.length = s.buffer.length) : MicroOutcome s (microStepOn iv s) := by
  unfold microStepOn
  split
  · exact .inr ⟨⟨ScratchOnly.refl s, rfl⟩, id⟩
  · next hf => exact microLocate_outcome hf hl
  · exact microClassify_outcome hl
  · next hf => exact microValidate_outcome hf hl
  · next hf => exact microConvert_outcome hf hl
  · next hf => exact microCheck_outcome hf
  · exact (commitPayload_effect s).micro

/-- Everything the block's own move can answer, in any state. -/
theorem microStep_outcome (s : State) : MicroOutcome s (microStep s) := by
  by_cases hf : s.fsm = .idle
  · rw [microStep_idle hf]
    exact .inr ⟨⟨ScratchOnly.refl s, rfl⟩, id⟩
  · cases ha : bufferArgument s with
    | error r => simp only [microStep, hf, if_false, ha]; trivial
    | ok iv =>
      have hok : ArgumentOk iv s := ha
      rw [microStep_ok hf hok]
      exact microStepOn_outcome hok.length

/-! ## Every step keeps the invariant -/

theorem busyInv_of_idle (hf : s.fsm = .idle) : s.BusyInv := by simp [State.BusyInv, hf]

/-- R24, R144: the standard protocol's word has no bit above 15. -/
theorem pack_std_high (w : Payload) : (pack false w).extractLsb' 16 8 = 0#8 := by
  rw [pack_eq_resultWord]
  apply BitVec.eq_of_getLsbD_eq
  intro i hi
  have h8 : ¬ 16 + i < 8 := by omega
  have h16 : ¬ 16 + i - 8 < 8 := by omega
  simp only [ResultWord, Bool.false_eq_true, if_false, BitVec.getLsbD_extractLsb', BitVec.getLsbD_append, h8, h16,
    BitVec.getLsbD_zero, Bool.and_false]

theorem SameLast.lastInv (hl : SameLast s t) (hc : SameConfig s t) (h : s.LastInv) : t.LastInv := by
  intro hv he
  rw [hl.2]
  exact h (hl.1 ▸ hv) (hc.1 ▸ he)

theorem DecodeEffect.resultInv (h : DecodeEffect s t) : t.ResultInv := by
  obtain ⟨-, -, ⟨hr, hv, hc⟩ | ⟨hr, hv, hlv, hlc⟩ | ⟨e, hr, he, -⟩⟩ := h <;>
    simp only [State.res, Prod.mk.injEq] at hr <;> obtain ⟨h1, h2, h3⟩ := hr
  · simp [State.ResultInv, h1, h2, h3, hv, hc, Status.valid]
  · simp [State.ResultInv, h1, h2, h3, hv, hlv, hlc, Status.valid]
  · simp [State.ResultInv, h1, h2, h3, he]

theorem DecodeEffect.lastInv (h : DecodeEffect s t) (hs : s.LastInv) : t.LastInv := by
  obtain ⟨⟨hcfg, -⟩, -, ⟨-, -, hc⟩ | ⟨-, -, hl⟩ | ⟨-, -, -, hl⟩⟩ := h
  · intro _ hext
    rw [hc, hext, pack_std_high]
  · exact hl.lastInv hcfg hs
  · exact hl.lastInv hcfg hs

theorem State.Inv.busyInv (h : s.Inv) : s.BusyInv := h.2.2.1

theorem State.Inv.capacityInv (h : s.Inv) : s.CapacityInv := h.2.2.2

theorem DecodeFrame.capacityInv (h : DecodeFrame s t) (hs : s.CapacityInv) : t.CapacityInv := by
  obtain ⟨-, -, hmax, -⟩ := h
  rwa [State.CapacityInv, hmax]

theorem DecodeEffect.inv (h : DecodeEffect s t) (hs : s.Inv) : t.Inv := by
  obtain ⟨-, hlast, -, hcap⟩ := hs
  exact ⟨h.resultInv, h.lastInv hlast, busyInv_of_idle h.2.1, h.1.capacityInv hcap⟩

theorem Continues.resultInv (h : Continues s t) (hs : s.ResultInv) : t.ResultInv := by
  obtain ⟨⟨-, hlv, hlc⟩, hres⟩ := h
  simp only [State.res, Prod.mk.injEq] at hres
  obtain ⟨h1, h2, h3⟩ := hres
  rwa [State.ResultInv, h1, h2, h3, hlv, hlc]

theorem Continues.inv (h : Continues s t) (hs : s.Inv) (hb : t.BusyInv) : t.Inv := by
  obtain ⟨hr, hlast, -, hcap⟩ := hs
  have hres := h.resultInv hr
  obtain ⟨⟨hframe, hl⟩, -⟩ := h
  exact ⟨hres, hl.lastInv hframe.1 hlast, hb, hframe.capacityInv hcap⟩

theorem microStep_safe (hs : s.Inv) : Safe (microStep s) := by
  have ho := microStep_outcome s
  cases hr : microStep s <;> rw [hr] at ho
  case next t =>
    obtain hend | ⟨hgo, hbusy⟩ := ho
    · exact hend.inv hs
    · exact hgo.inv hs (hbusy hs.busyInv)
  case fault f => exact ho hs.busyInv
  case refused r => trivial

/-- R150, R220: after INIT or a power-on reset neither `RES_VALID` nor `LAST_VALID` is set. -/
theorem initialise_inv (ext : Bool) (tol : Micros) (hs : s.Inv) : (initialise ext tol s).Inv :=
  ⟨⟨rfl, fun _ => rfl, fun h => absurd h Bool.false_ne_true⟩, fun h => absurd h Bool.false_ne_true, trivial,
    hs.capacityInv⟩

theorem exec_safe (i : Instr) (hs : s.Inv) : Safe (exec i s) := by
  by_cases hi : isDecodeForm i = true
  · obtain ⟨r, -, e⟩ | ⟨-, t, -, e, ht⟩ := exec_decodeForm_cases hi s <;> rw [e]
    · trivial
    · exact ht.inv hs
  · cases i with
    | init ext tol =>
      obtain ⟨-, e⟩ | ⟨-, e⟩ := execInit_cases ext tol s <;> rw [e]
      · exact initialise_inv ext tol hs
      · trivial
    | _ => exact absurd rfl hi

/-- The buffer bounds the indices of a busy block alone, and a busy block's buffer does not change (R223). -/
theorem fillBuffer_safe (m : Memory) (hs : s.Inv) : Safe (fillBuffer m s) := by
  obtain ⟨hf, e⟩ | ⟨-, e⟩ := fillBuffer_cases m s <;> rw [e]
  · obtain ⟨hr, hl, -, hc⟩ := hs
    exact ⟨hr, hl, busyInv_of_idle hf, hc⟩
  · trivial

/-- Settles O44, by the host's next move: each one keeps the invariant, whatever moves remain. -/
theorem stepIsSafe : Obligations.StepIsSafe := by
  intro s hs
  have hrest (rest : List HostMove) : ({ s with host := rest } : State).Inv := hs
  cases hh : s.host with
  | nil => rw [step_noMove hh]; exact microStep_safe hs
  | cons m rest =>
    cases m with
    | powerOnReset => rw [step_powerOnReset hh]; exact initialise_inv _ _ (hrest rest)
    | fillBuffer iv => rw [step_fillBuffer hh]; exact fillBuffer_safe iv (hrest rest)
    | command c => rw [step_command hh]; exact exec_safe _ (hrest rest)

end Sys2Proof.Machine
end

section
/-! Who writes the configuration and `LAST_*`, and the frame of the DECODE forms (10_state.md R20 to R23, R227;
20_memory.md R40, R47). -/

namespace Sys2Proof.Machine

variable {s t : State}

theorem DecodeEffect.sameConfig (h : DecodeEffect s t) : SameConfig s t := h.1.1

theorem DecodeEffect.okNew (h : DecodeEffect s t) (hs : t.resStatus = .okNew) :
    t.lastValid = true ∧ t.lastCode = t.resValue := by
  obtain ⟨-, -, ⟨hr, hv, hc⟩ | ⟨hr, -⟩ | ⟨e, hr, he, -⟩⟩ := h <;>
    simp only [State.res, Prod.mk.injEq] at hr <;> obtain ⟨-, h2, h3⟩ := hr
  · exact ⟨hv, hc.trans h2.symm⟩
  · simp [h3] at hs
  · rw [← h3, hs] at he
    exact absurd he.symm Bool.false_ne_true

theorem DecodeEffect.sameLast (h : DecodeEffect s t) (hs : t.resStatus ≠ .okNew) : SameLast s t := by
  obtain ⟨-, -, ⟨hr, -⟩ | ⟨-, -, hl⟩ | ⟨-, -, -, hl⟩⟩ := h
  · exact absurd (congrArg (·.2.2) hr) hs
  · exact hl
  · exact hl

theorem microStep_sameConfig (h : microStep s = .next t) : SameConfig s t := by
  have ho := microStep_outcome s
  rw [h] at ho
  obtain hend | ⟨⟨⟨⟨hcfg, -⟩, -⟩, -⟩, -⟩ := ho
  · exact hend.sameConfig
  · exact hcfg

/-- Settles O4, by the host's next move: INIT and power-on reset write the configuration, and no other move does. -/
theorem configurationChangesOnlyByInit : Obligations.ConfigurationChangesOnlyByInit := by
  intro s t h
  cases hh : s.host with
  | nil => exact .inl (microStep_sameConfig (step_noMove hh ▸ h))
  | cons m rest =>
    cases m with
    | powerOnReset =>
      rw [step_powerOnReset hh, Host.Outcome.next.injEq] at h
      subst h
      exact .inr ⟨rfl, .inr ⟨rest, rfl, rfl, rfl⟩⟩
    | fillBuffer iv =>
      rw [step_fillBuffer hh] at h
      rw [fillBuffer_next h]
      exact .inl ⟨rfl, rfl⟩
    | command c =>
      rw [step_command hh] at h
      by_cases hc : c.cmd = 1#1
      · rw [decode_init hc] at h
        rw [execInit_next h]
        exact .inr ⟨rfl, .inl ⟨c, rest, rfl, hc, rfl, rfl⟩⟩
      · exact .inl (exec_decodeForm_next (decode_isDecodeForm hc) h).sameConfig

/-- Settles O5, from the effect of each of the three writers. -/
theorem lastCodeWrittenOnlyByNewDecode : Obligations.LastCodeWrittenOnlyByNewDecode := by
  refine ⟨fun ext tol s t h => ?init, fun i s t hi h => ?decode, fun s t iv rest hh h => ?fill⟩
  case init => rw [execInit_next h]; rfl
  case decode =>
    have ht := exec_decodeForm_next hi h
    exact ⟨ht.okNew, ht.sameLast⟩
  case fill =>
    rw [step_fillBuffer hh] at h
    rw [fillBuffer_next h]
    exact ⟨rfl, rfl⟩

theorem exec_frameRepeat_next {start : Nat} (h : exec (.frameRepeat start) s = .next t) :
    t = repeatPath { s with scanI := start, start := start, mtype := .repeatMsg } := by
  cases ha : decodeArgument s <;> simp only [exec, execFrameRepeat, ha] at h
  · simp at h
  · simpa using h.symm

/-- Settles O32, from the effect of a DECODE form; a Repeat frame takes the Repeat path, which carries no payload. -/
theorem decodeFormsFrame : Obligations.DecodeFormsFrame := by
  refine ⟨fun i s t hi h => ?frame, fun start s t h => ?repeatFrame⟩
  case frame =>
    have ht := exec_decodeForm_next hi h
    exact ⟨ht.1, ht.sameLast⟩
  case repeatFrame =>
    rw [exec_frameRepeat_next h]
    simp

end Sys2Proof.Machine
end

section
/-! Noninterference of `LAST_CODE` (10_state.md R25): in two states that differ in it alone, every instruction shows the
host the same, unless both end OK_REPEAT. -/

namespace Sys2Proof.Machine

/-- The host reads the same of both blocks, or both ended OK_REPEAT (R25). -/
def SameShown (t u : State) : Prop :=
  hostView t = hostView u ∨ (t.resStatus = .okRepeat ∧ u.resStatus = .okRepeat)

variable {s u : State}

theorem SameOutcome.ofNext {R : State → State → Prop} (h : R s u) : SameOutcome R (.next s) (.next u) := h

theorem failWith_shown (e : Status) (s u : State) : SameShown (failWith e s) (failWith e u) := .inl rfl

theorem repeatPath_shown (h : s.lastValid = u.lastValid) : SameShown (repeatPath s) (repeatPath u) := by
  cases hv : u.lastValid <;> rw [hv] at h <;> simp only [repeatPath, h, hv]
  · exact failWith_shown _ _ _
  · exact .inr ⟨rfl, rfl⟩

theorem checkPayload_shown (he : s.cfgExt = u.cfgExt) (hp : s.payload = u.payload) :
    SameShown (checkPayload s) (checkPayload u) := by
  by_cases hc : ChecksPass u.cfgExt u.payload
  · rw [checkPayload_pass hc, checkPayload_pass (he ▸ hp ▸ hc)]
    exact .inl (by simp [hostView, he, hp])
  · rw [checkPayload_mismatch hc, checkPayload_mismatch (he ▸ hp ▸ hc)]
    exact failWith_shown _ _ _

theorem newPath_shown (iv : List Micros) (b : Nat) (p : Option Payload) (s : State) (x : Code) :
    SameOutcome SameShown (newPath iv b p s) (newPath iv b p { s with lastCode := x }) := by
  unfold newPath
  dsimp only
  cases validNew s.cfgTol iv b with
  | none => rfl
  | some v =>
    cases v with
    | fail e => exact .ofNext (failWith_shown _ _ _)
    | pass =>
      cases p with
      | none => rfl
      | some w => exact .ofNext (checkPayload_shown rfl rfl)

theorem decodeList_shown (iv : List Micros) (s : State) (x : Code) :
    SameOutcome SameShown (decodeList iv s) (decodeList iv { s with lastCode := x }) := by
  unfold decodeList
  dsimp only
  cases locate s.cfgTol iv with
  | none => exact .ofNext (failWith_shown _ _ _)
  | some b =>
    dsimp only
    cases iv[b + 1]? with
    | none => exact .ofNext (failWith_shown _ _ _)
    | some p =>
      dsimp only
      cases classify s.cfgTol p with
      | invalid => exact .ofNext (failWith_shown _ _ _)
      | repeatMsg => exact .ofNext (repeatPath_shown rfl)
      | newMsg => exact newPath_shown iv b _ s x

theorem decodeForm_shown {i : Instr} (hi : isDecodeForm i = true) (s : State) (x : Code) :
    SameOutcome SameShown (exec i s) (exec i { s with lastCode := x }) := by
  have harg : decodeArgument { s with lastCode := x } = decodeArgument s := rfl
  cases ha : decodeArgument s with
  | error r =>
    rw [(exec_decodeForm (iv := []) hi).1 r ha, (exec_decodeForm (iv := []) hi).1 r (harg.trans ha)]
    rfl
  | ok iv =>
    cases i with
    | init ext tol => exact absurd hi Bool.false_ne_true
    | decode => simpa only [exec, execDecode, harg, ha] using decodeList_shown iv s x
    | frameNewStd start a b c k => simpa only [exec, execFrameNewStd, harg, ha] using newPath_shown iv start _ s x
    | frameNewExt start e c k => simpa only [exec, execFrameNewExt, harg, ha] using newPath_shown iv start _ s x
    | frameRepeat start =>
      simp only [exec, execFrameRepeat, harg, ha]
      exact .ofNext (repeatPath_shown rfl)

theorem execInit_shown (ext : Bool) (tol : Micros) (s : State) (x : Code) :
    SameOutcome SameShown (exec (.init ext tol) s) (exec (.init ext tol) { s with lastCode := x }) := by
  by_cases hf : s.fsm = .idle
  · simp only [exec, execInit, hf, if_true]
    exact .ofNext (.inl rfl)
  · simp only [exec, execInit, hf, if_false]
    rfl

/-- Settles O47: the argument and the path of a DECODE do not depend on `LAST_CODE`, and INIT overwrites it. -/
theorem lastCodeShownOnlyByRepeat : Obligations.LastCodeShownOnlyByRepeat := by
  intro i s x
  cases i with
  | init ext tol => exact execInit_shown ext tol s x
  | _ => exact decodeForm_shown rfl s x

end Sys2Proof.Machine
end

section
/-! The codes of the enumerations (10_state.md R27, R28; 30_encoding.md R67, R68): each is the constructor's place in
the table, which gives both their distinctness and their range. -/

namespace Sys2Proof

theorem status_code_toNat (e : Status) : e.code.toNat = e.ctorIdx := by cases e <;> rfl

theorem fsm_code_toNat (f : Fsm) : f.code.toNat = f.ctorIdx := by cases f <;> rfl

theorem mtype_code_toNat (m : MType) : m.code.toNat = m.ctorIdx := by cases m <;> rfl

theorem status_code_injective {e e' : Status} (h : e.code = e'.code) : e = e' := by
  rw [← Status.ofNat_ctorIdx e, ← status_code_toNat, h, status_code_toNat, Status.ofNat_ctorIdx]

theorem fsm_code_injective {f f' : Fsm} (h : f.code = f'.code) : f = f' := by
  rw [← Fsm.ofNat_ctorIdx f, ← fsm_code_toNat, h, fsm_code_toNat, Fsm.ofNat_ctorIdx]

theorem mtype_code_injective {m m' : MType} (h : m.code = m'.code) : m = m' := by
  rw [← MType.ofNat_ctorIdx m, ← mtype_code_toNat, h, mtype_code_toNat, MType.ofNat_ctorIdx]

theorem status_code_le (e : Status) : e.code.toNat ≤ 8 := by cases e <;> decide

theorem status_valid_iff (e : Status) : e.valid = true ↔ e.code = 1#4 ∨ e.code = 2#4 := by cases e <;> decide

theorem fsm_code_ne_reserved (f : Fsm) : f.code ≠ 0b111#3 := by cases f <;> decide

theorem mtype_code_ne_reserved (m : MType) : m.code ≠ 0b11#2 := by cases m <;> decide

/-- Settles O26, from the range and the distinctness of each enumeration's codes. -/
theorem reservedCodesAreNeverProduced : Obligations.ReservedCodesAreNeverProduced :=
  ⟨status_code_le, fun _ _ => status_code_injective, status_valid_iff,
    fsm_code_ne_reserved, fun _ _ => fsm_code_injective,
    mtype_code_ne_reserved, fun _ _ => mtype_code_injective⟩

end Sys2Proof
end

section
/-! The stages of a DECODE read the list only where it has elements (20_memory.md R41, R42; 60_exceptions.md R200): no
instruction faults in any state. -/

namespace Sys2Proof.Machine

/-- Settles O45: INIT and the DECODE forms each answer a refusal or a next state, in any state. -/
theorem instructionsNeverFault : Obligations.InstructionsNeverFault := by
  intro i s f hf
  by_cases hi : isDecodeForm i = true
  · obtain ⟨r, -, e⟩ | ⟨-, t, -, e, -⟩ := exec_decodeForm_cases hi s <;> simp [e] at hf
  · cases i with
    | init ext tol => obtain ⟨-, e⟩ | ⟨-, e⟩ := execInit_cases ext tol s <;> simp [e] at hf
    | _ => exact absurd rfl hi

end Sys2Proof.Machine
end

section
/-! Noninterference of the elements that a DECODE does not read (20_memory.md R42): two lists of one length that agree
where the first is read are of one kind, with the same burst, pause, terminator and payload. -/

namespace Sys2Proof.Machine

variable {tol : Micros} {iv iv' : List Micros} {b i : Nat}

/-! ## What is read -/

theorem reads_of_noBurst (h : ∀ v ∈ iv, inBurst tol v = false) : Reads tol iv i := by
  have hl : locate tol iv = none := locateFrom_eq_none.mpr h
  simp only [Reads, hl]

theorem reads_upToPause (hb : FirstBurst tol iv b) (hi : i ≤ b + 1) : Reads tol iv i := by
  simp only [Reads, hb.locate]
  exact .inl hi

/-- Once a New frame has its full count, the terminator and the samples are read. -/
theorem reads_newFrame (hb : FirstBurst tol iv b) (hp : PauseIsNew tol iv b) (hn : 67 ≤ iv.length - b)
    (hi : i = 66 ∨ ∃ k < 32, i = b + 3 + 2 * k) : Reads tol iv i := by
  obtain ⟨p, hp, -, hc⟩ := hp.classify
  simp only [Reads, hb.locate]
  exact .inr ⟨hn, by rw [hp, Option.map_some, hc], hi⟩

/-! ## Agreement where the first list is read -/

/-- Two lists of one length that agree wherever a DECODE of the first reads (R42). -/
def AgreeOnReads (tol : Micros) (iv iv' : List Micros) : Prop :=
  iv.length = iv'.length ∧ ∀ i, Reads tol iv i → iv[i]? = iv'[i]?

namespace AgreeOnReads

variable (h : AgreeOnReads tol iv iv')
include h

theorem eq_of_noBurst (hn : ∀ v ∈ iv, inBurst tol v = false) : iv = iv' :=
  List.ext_getElem? fun i => h.2 i (reads_of_noBurst hn)

theorem firstBurst (hb : FirstBurst tol iv b) : FirstBurst tol iv' b := by
  have heq (i : Nat) (hi : i ≤ b) : iv[i]? = iv'[i]? := h.2 i (reads_upToPause hb (by omega))
  obtain ⟨hburst, hbefore⟩ := hb
  rw [heq b le_rfl] at hburst
  exact ⟨hburst, fun j hj v hv => hbefore j hj v (heq j hj.le ▸ hv)⟩

theorem pause (hb : FirstBurst tol iv b) : iv[b + 1]? = iv'[b + 1]? := h.2 _ (reads_upToPause hb le_rfl)

theorem pauseIsNew (hb : FirstBurst tol iv b) (hp : PauseIsNew tol iv b) : PauseIsNew tol iv' b := by
  rwa [PauseIsNew, ← h.pause hb]

theorem pauseIsRepeat (hb : FirstBurst tol iv b) (hp : PauseIsRepeat tol iv b) : PauseIsRepeat tol iv' b := by
  rwa [PauseIsRepeat, ← h.pause hb]

theorem pauseIsInvalid (hb : FirstBurst tol iv b) (hp : PauseIsInvalid tol iv b) : PauseIsInvalid tol iv' b := by
  rwa [PauseIsInvalid, ← h.pause hb]

theorem countAndTerminatorOk (hb : FirstBurst tol iv b) (hp : PauseIsNew tol iv b) (hn : 67 ≤ iv.length - b) :
    CountAndTerminatorOk tol iv b ↔ CountAndTerminatorOk tol iv' b := by
  have hterm : iv[66]? = iv'[66]? := h.2 66 (reads_newFrame hb hp hn (.inl rfl))
  simp only [CountAndTerminatorOk, params_idxTermNew, h.1, hterm]

theorem payloadAt {w : Payload} (hb : FirstBurst tol iv b) (hp : PauseIsNew tol iv b) (hn : 67 ≤ iv.length - b)
    (hw : PayloadAt tol iv b w) : PayloadAt tol iv' b w := by
  intro k hk
  rw [← h.2 (b + 3 + 2 * k) (reads_newFrame hb hp hn (.inr ⟨k, hk, rfl⟩))]
  exact hw k hk

end AgreeOnReads

/-! ## DECODE of the two lists -/

/-- Settles O48, kind by kind of the first list: the second is of the same kind, and no kind's end looks at the
buffer. -/
theorem unreadElementsDoNotMatter : Obligations.UnreadElementsDoNotMatter := by
  intro s iv iv' other hs hs' hlen hreads
  have h : AgreeOnReads s.cfgTol iv iv' := ⟨hlen, hreads⟩
  obtain ⟨hn, e⟩ | ⟨b, hb, hkind⟩ := execDecode_cases hs
  · obtain rfl := h.eq_of_noBurst hn
    exact ⟨_, e, execDecode_noBurst hs' hn⟩
  have hb' := h.firstBurst hb
  obtain ⟨hp, e⟩ | ⟨hp, e⟩ | ⟨hp, e⟩ | ⟨hp, hn, e⟩ | ⟨hp, hn, ht, e⟩ | ⟨hp, ht, w, hw, e⟩ := hkind
  · exact ⟨_, e, execDecode_noPause hs' hb' (hlen ▸ hp)⟩
  · exact ⟨_, e, execDecode_invalid hs' hb' (h.pauseIsInvalid hb hp)⟩
  · have e' := execDecode_repeat hs' hb' (h.pauseIsRepeat hb hp)
    exact ⟨_, e, by rw [← repeatPath_withBuffer]; exact e'⟩
  · exact ⟨_, e, execDecode_short hs' hb' (h.pauseIsNew hb hp) (hlen ▸ hn)⟩
  · have ht' := mt (h.countAndTerminatorOk hb hp hn).mpr ht
    exact ⟨_, e, execDecode_malformed hs' hb' (h.pauseIsNew hb hp) (hlen ▸ hn) ht'⟩
  · have ht' := (h.countAndTerminatorOk hb hp ht.1).mp ht
    have hw' := h.payloadAt hb hp ht.1 hw
    have e' := execDecode_new hs' hb' (h.pauseIsNew hb hp) ht' hw'
    exact ⟨_, e, by rw [← checkPayload_withBuffer]; exact e'⟩

end Sys2Proof.Machine
end

section
/-! The payload words of the encoder's frames: their fields, the words of `NEC(addr, cmd)` (30_encoding.md R66, R71), and
the checks and the result of a word, field by field (45_redundancy_pack.md R140 to R144). -/

namespace Sys2Proof

variable (a b c k : Byte) (e : BitVec 16) (w : Payload)

/-! ## Each pattern read as the other protocol's -/

@[simp] theorem extAddrField_std : extAddrField (stdPayload a b c k) = b ++ a := by
  apply BitVec.eq_of_getLsbD_eq
  intro i hi
  have h : (stdPayload a b c k).getLsbD i = if i < 8 then a.getLsbD i else b.getLsbD (i - 8) := by
    simp only [stdPayload_getLsbD, hi, if_true]
  rw [extAddrField, BitVec.getLsbD_extractLsb', Nat.zero_add, h, BitVec.getLsbD_append]
  simp [hi]

@[simp] theorem addrField_ext : addrField (extPayload e c k) = e.extractLsb' 0 8 := by
  apply BitVec.eq_of_getLsbD_eq
  intro i hi
  have h16 : i < 16 := by omega
  simp [addrField, extPayload_getLsbD, h16]

@[simp] theorem addrInvField_ext : addrInvField (extPayload e c k) = e.extractLsb' 8 8 := by
  apply BitVec.eq_of_getLsbD_eq
  intro i hi
  have h16 : 8 + i < 16 := by omega
  simp [addrInvField, extPayload_getLsbD, h16]

/-! ## The patterns as shifted fields -/

theorem stdPayload_eq_or : stdPayload a b c k =
    (a.setWidth 32 ||| (b.setWidth 32 <<< 8) ||| (c.setWidth 32 <<< 16) ||| (k.setWidth 32 <<< 24)) := by
  apply BitVec.eq_of_getLsbD_eq
  intro i hi
  simp [stdPayload_getLsbD]
  grind

theorem extPayload_eq_or : extPayload e c k =
    (e.setWidth 32 ||| (c.setWidth 32 <<< 16) ||| (k.setWidth 32 <<< 24)) := by
  apply BitVec.eq_of_getLsbD_eq
  intro i hi
  simp [extPayload_getLsbD]
  grind

/-! ## The checks and the result, field by field -/

variable {w}

theorem checksPass_iff_fields {ext : Bool} : ChecksPass ext w ↔
    cmdField w ^^^ cmdInvField w = 0xFF#8 ∧ (ext = false → addrField w ^^^ addrInvField w = 0xFF#8) := by
  rw [← Machine.checksPass_iff]
  cases ext <;> simp [cmdOk, addrOk, complementary]

theorem resultWord_std : ResultWord false w = (0#8 ++ addrField w ++ cmdField w : BitVec 24) := rfl

theorem resultWord_ext : ResultWord true w = (extAddrField w ++ cmdField w : BitVec 24) := rfl

theorem byte_xor_not_self : c ^^^ ~~~c = 0xFF#8 :=
  Machine.byte_xor_eq_ff.mpr fun i hi => by simp [hi]

/-! ## The nominal frame's layout -/

/-- Settles O49, from the elements of the nominal frame and the patterns as shifted fields. -/
theorem nominalFrameLayout : Obligations.NominalFrameLayout := by
  refine ⟨fun p => ?layout, fun a c => ?std, fun a c => ?ext⟩
  case layout =>
    exact ⟨nominalFrame_length p, nominalFrame_burst p, nominalFrame_pause p, nominalFrame_terminator p,
      fun k hk => nominalFrame_pair p hk⟩
  case std => rw [necStd, stdPayload_eq_or]
  case ext => rw [necExt, extPayload_eq_or]

end Sys2Proof
end

section
/-! The integer view of the result registers (30_encoding.md R66). -/

namespace Sys2Proof.Machine

variable {s : State}

theorem integerView_valid (h : s.resValid = true) : integerView s = (s.resValue.toNat : Int) := if_pos h

theorem integerView_invalid (h : s.resValid = false) : integerView s = -1 := by simp [integerView, h]

/-- Settles O25: a valid result's view is a natural number, so it is not -1. -/
theorem integerViewNeverCollides : Obligations.IntegerViewNeverCollides := by
  refine fun s => ⟨⟨fun hview => ?_, integerView_invalid⟩, integerView_valid⟩
  by_contra hv
  rw [integerView_valid (by simpa using hv)] at hview
  omega

end Sys2Proof.Machine
end

section
/-! The New frame forms complete (43_frame_validate.md R120; 45_redundancy_pack.md R141 to R144; R160): what the New
path leaves behind, for a payload in general, and then for the fields of each form. -/

namespace Sys2Proof.Machine

variable {s t : State} {iv : List Micros} {start : Nat} {w : Payload}

/-- What a New frame at `start` with payload `w` leaves behind: the status of the first check that fails, or the packed
word (R120, R159, R160, R203). -/
structure NewFrameOutcome (iv : List Micros) (start : Nat) (w : Payload) (s t : State) : Prop where
  frame : DecodeFrame s t
  idle : t.fsm = .idle
  short : iv.length - start < 67 → t.res = (false, 0#24, .structShort) ∧ SameLast s t
  malformed : 67 ≤ iv.length - start → ¬ (PauseIsNew s.cfgTol iv start ∧ CountAndTerminatorOk s.cfgTol iv start) →
    t.res = (false, 0#24, .malformed) ∧ SameLast s t
  committed : PauseIsNew s.cfgTol iv start → CountAndTerminatorOk s.cfgTol iv start → ChecksPass s.cfgExt w →
    t.res = (true, ResultWord s.cfgExt w, .okNew) ∧ t.lastValid = true ∧ t.lastCode = ResultWord s.cfgExt w
  mismatch : PauseIsNew s.cfgTol iv start → CountAndTerminatorOk s.cfgTol iv start → ¬ ChecksPass s.cfgExt w →
    t.res = (false, 0#24, .redundancyMismatch) ∧ SameLast s t

theorem commitPayload_registers (s : State) :
    (commitPayload s).res = (true, ResultWord s.cfgExt s.payload, .okNew) ∧ (commitPayload s).lastValid = true ∧
      (commitPayload s).lastCode = ResultWord s.cfgExt s.payload := by
  simp [State.res, pack_eq_resultWord]

/-- The New path's three ends, each of which meets its own clause and contradicts the premises of the others. -/
theorem newPath_outcome (iv : List Micros) (start : Nat) (w : Payload) (s : State) :
    ∃ t, newPath iv start (some w) s = .next t ∧ NewFrameOutcome iv start w s t := by
  obtain ⟨t, ht, hframe, hidle, -⟩ := newPath_effect iv start w s
  refine ⟨t, ht, ?_⟩
  obtain ⟨hn, e⟩ | ⟨hn, hbad, e⟩ | ⟨hp, hct, e⟩ := newPath_cases iv start w s <;>
    rw [e, Host.Outcome.next.injEq] at ht <;> subst ht
  case inl =>
    exact ⟨hframe, hidle, fun _ => ⟨rfl, rfl, rfl⟩, fun h => absurd hn (Nat.not_lt.mpr h),
      fun _ hct => absurd hn (Nat.not_lt.mpr hct.1), fun _ hct => absurd hn (Nat.not_lt.mpr hct.1)⟩
  case inr.inl =>
    exact ⟨hframe, hidle, fun h => absurd h (Nat.not_lt.mpr hn), fun _ _ => ⟨rfl, rfl, rfl⟩,
      fun hp hct => absurd ⟨hp, hct⟩ hbad, fun hp hct => absurd ⟨hp, hct⟩ hbad⟩
  case inr.inr =>
    refine ⟨hframe, hidle, fun h => absurd h (Nat.not_lt.mpr hct.1), fun _ hbad => absurd ⟨hp, hct⟩ hbad,
      fun _ _ hc => ?_, fun _ _ hc => ?_⟩
    · rw [checkPayload_pass hc]
      exact commitPayload_registers _
    · rw [checkPayload_mismatch hc]
      exact ⟨rfl, rfl, rfl⟩

/-! ## The outcome in a valid frame, from the fields of the payload -/

namespace NewFrameOutcome

variable (ho : NewFrameOutcome iv start w s t) (hp : PauseIsNew s.cfgTol iv start)
  (hct : CountAndTerminatorOk s.cfgTol iv start)
include ho hp hct

theorem committed_std (hext : s.cfgExt = false) (haddr : addrField w ^^^ addrInvField w = 0xFF#8)
    (hcmd : cmdField w ^^^ cmdInvField w = 0xFF#8) :
    t.res = (true, (0#8 ++ addrField w ++ cmdField w : BitVec 24), .okNew) ∧ t.lastValid = true ∧
      t.lastCode = (0#8 ++ addrField w ++ cmdField w : BitVec 24) := by
  have h := ho.committed hp hct (checksPass_iff_fields.mpr ⟨hcmd, fun _ => haddr⟩)
  rwa [hext, resultWord_std] at h

theorem committed_ext (hext : s.cfgExt = true) (hcmd : cmdField w ^^^ cmdInvField w = 0xFF#8) :
    t.res = (true, (extAddrField w ++ cmdField w : BitVec 24), .okNew) ∧ t.lastValid = true ∧
      t.lastCode = (extAddrField w ++ cmdField w : BitVec 24) := by
  have h := ho.committed hp hct (checksPass_iff_fields.mpr ⟨hcmd, by simp [hext]⟩)
  rwa [hext, resultWord_ext] at h

theorem mismatch_of_fields (hbad : cmdField w ^^^ cmdInvField w ≠ 0xFF#8 ∨
    (s.cfgExt = false ∧ addrField w ^^^ addrInvField w ≠ 0xFF#8)) :
    t.res = (false, 0#24, .redundancyMismatch) ∧ SameLast s t := by
  refine ho.mismatch hp hct fun hc => ?_
  obtain ⟨hcmd, haddr⟩ := checksPass_iff_fields.mp hc
  exact hbad.elim (· hcmd) fun ⟨hext, hne⟩ => hne (haddr hext)

end NewFrameOutcome

/-! ## The two forms -/

theorem exec_frameNewStd (h : DecodeReady iv s) (start : Nat) (a b c k : Byte) :
    exec (.frameNewStd start a b c k) s = newPath iv start (some (stdPayload a b c k)) s := by
  simp only [exec, execFrameNewStd, h.argument]

theorem exec_frameNewExt (h : DecodeReady iv s) (start : Nat) (e : BitVec 16) (c k : Byte) :
    exec (.frameNewExt start e c k) s = newPath iv start (some (extPayload e c k)) s := by
  simp only [exec, execFrameNewExt, h.argument]

/-- Settles O34: the outcome of the New path, read off the fields of the standard pattern. -/
theorem standardFrameCompletes : Obligations.StandardFrameCompletes := by
  intro s iv start a b c k hs
  obtain ⟨t, ht, ho⟩ := newPath_outcome iv start (stdPayload a b c k) s
  refine ⟨t, (exec_frameNewStd hs start a b c k).trans ht, ho.frame, ho.idle, ho.short, ho.malformed, fun hp hct =>
    ⟨fun hext hab hck => ?std, fun hext hck => ?ext, fun hbad => ?mismatch⟩⟩
  case std => simpa using ho.committed_std hp hct hext (by simpa using hab) (by simpa using hck)
  case ext => simpa using ho.committed_ext hp hct hext (by simpa using hck)
  case mismatch => exact ho.mismatch_of_fields hp hct (by simpa using hbad)

/-- Settles O35: the outcome of the New path, read off the fields of the extended pattern. -/
theorem extendedFrameCompletes : Obligations.ExtendedFrameCompletes := by
  intro s iv start e c k hs
  obtain ⟨t, ht, ho⟩ := newPath_outcome iv start (extPayload e c k) s
  refine ⟨t, (exec_frameNewExt hs start e c k).trans ht, ho.frame, ho.idle, ho.short, ho.malformed, fun hp hct =>
    ⟨fun hext hck => ?ext, fun hext hck hab => ?std, fun hbad => ?mismatch⟩⟩
  case ext => simpa using ho.committed_ext hp hct hext (by simpa using hck)
  case std => simpa using ho.committed_std hp hct hext (by simpa using hab) (by simpa using hck)
  case mismatch => exact ho.mismatch_of_fields hp hct (by simpa using hbad)

end Sys2Proof.Machine
end

section
/-! The instruction decoder, kind by kind of the list (30_encoding.md R60, R65, R72), and that the row it selects does
what DECODE does (46_decoder_fsm.md R151). -/

namespace Sys2Proof

variable {ext : Bool} {tol : Micros} {iv : List Micros} {b : Nat} {c : Command} {m : Machine.Memory}

/-- The New frame row of the variant that `ext` selects, at `b`, with the fields of `w` (R66, R72). -/
def newForm (ext : Bool) (b : Nat) (w : Payload) : Instr :=
  if ext then .frameNewExt b (extAddrField w) (cmdField w) (cmdInvField w)
  else .frameNewStd b (addrField w) (addrInvField w) (cmdField w) (cmdInvField w)

theorem newForm_std (b : Nat) (w : Payload) :
    newForm false b w = .frameNewStd b (addrField w) (addrInvField w) (cmdField w) (cmdInvField w) := rfl

theorem newForm_ext (b : Nat) (w : Payload) :
    newForm true b w = .frameNewExt b (extAddrField w) (cmdField w) (cmdInvField w) := rfl

theorem decode_of_durations (hc : c.cmd = 0#1) (hm : durations m = some iv) :
    decode ext tol c m = frameForm ext tol iv := by
  simp [decode, hc, hm]

theorem frameForm_noBurst (hn : ∀ v ∈ iv, inBurst tol v = false) : frameForm ext tol iv = .decode := by
  have hl : locate tol iv = none := locateFrom_eq_none.mpr hn
  simp only [frameForm, hl]

theorem frameForm_noPause (hb : FirstBurst tol iv b) (hp : iv.length = b + 1) : frameForm ext tol iv = .decode := by
  simp only [frameForm, hb.locate, List.getElem?_eq_none hp.le]

theorem frameForm_invalid (hb : FirstBurst tol iv b) (hp : PauseIsInvalid tol iv b) :
    frameForm ext tol iv = .decode := by
  obtain ⟨p, hp, hc⟩ := hp.classify
  simp only [frameForm, hb.locate, hp, hc]

theorem frameForm_repeat (hb : FirstBurst tol iv b) (hp : PauseIsRepeat tol iv b) :
    frameForm ext tol iv = .frameRepeat b := by
  obtain ⟨p, hp, hc⟩ := hp.classify
  simp only [frameForm, hb.locate, hp, hc]

theorem frameForm_new (hb : FirstBurst tol iv b) (hp : PauseIsNew tol iv b) :
    frameForm ext tol iv = newForm ext b (framePayload tol iv b) := by
  obtain ⟨p, hp, -, hc⟩ := hp.classify
  simp only [frameForm, hb.locate, hp, hc, newForm]

theorem framePayload_eq {w : Payload} (hw : convert tol iv b = some w) : framePayload tol iv b = w := by
  rw [framePayload, hw, Option.getD_some]

/-- Settles O54, from the decoder's answer for each kind of list. -/
theorem pauseAndConfigurationSelectTheRow : Obligations.PauseAndConfigurationSelectTheRow := by
  refine ⟨fun ext tol c m hc => Machine.decode_init hc, fun ext tol c m iv hc hm => ?_⟩
  rw [decode_of_durations hc hm]
  refine ⟨frameForm_noBurst, fun b hb =>
    ⟨fun hp hext => ?std, fun hp hext => ?ext, frameForm_repeat hb, fun hp => ?none⟩⟩
  case std =>
    subst hext
    exact ⟨_, _, _, _, by rw [frameForm_new hb hp, newForm_std]⟩
  case ext =>
    subst hext
    exact ⟨_, _, _, by rw [frameForm_new hb hp, newForm_ext]⟩
  case none =>
    obtain hp | hp := hp
    · exact frameForm_invalid hb hp
    · exact frameForm_noPause hb hp

end Sys2Proof

namespace Sys2Proof.Machine

variable {s : State} {iv : List Micros} {b : Nat}

theorem DecodeReady.durations (h : DecodeReady iv s) : Sys2Proof.durations s.buffer = some iv := h.2.2.2

theorem exec_newForm (h : DecodeReady iv s) (ext : Bool) (b : Nat) (w : Payload) :
    exec (newForm ext b w) s = newPath iv b (some w) s := by
  cases ext
  · rw [newForm_std, exec_frameNewStd h, stdPayload_fields]
  · rw [newForm_ext, exec_frameNewExt h, extPayload_fields]

theorem exec_frameRepeat (h : DecodeReady iv s) (b : Nat) :
    exec (.frameRepeat b) s = .next (repeatPath { s with scanI := b, start := b, mtype := .repeatMsg }) := by
  simp only [exec, execFrameRepeat, h.argument]

/-- The decoder's payload serves the New path as the converter's answer does: where there is none, the count fails
before the payload is read (assumption 6). -/
theorem newPath_framePayload (iv : List Micros) (b : Nat) (s : State) :
    newPath iv b (some (framePayload s.cfgTol iv b)) s = newPath iv b (convert s.cfgTol iv b) s := by
  by_cases hn : iv.length - b < 67
  · rw [newPath_short hn, newPath_short hn]
  · obtain ⟨w, hw, -⟩ := convert_spec (tol := s.cfgTol) (Nat.not_lt.mp hn)
    rw [framePayload_eq hw, hw]

theorem execDecode_newPath (h : DecodeReady iv s) (hb : FirstBurst s.cfgTol iv b) (hp : PauseIsNew s.cfgTol iv b) :
    execDecode s = newPath iv b (convert s.cfgTol iv b) s := by
  obtain ⟨p, hp, -, hc⟩ := hp.classify
  simp only [execDecode, h.argument, decodeList, hb.locate, hp, hc]

/-- R151: the row of an accepted list, executed, is DECODE. -/
theorem exec_frameForm (h : DecodeReady iv s) : exec (frameForm s.cfgExt s.cfgTol iv) s = exec .decode s := by
  obtain hn | ⟨b, hb, hp | hp | hp | ⟨hp, -⟩⟩ := list_cases s.cfgTol iv
  · rw [frameForm_noBurst hn]
  · rw [frameForm_noPause hb hp]
  · rw [frameForm_invalid hb hp]
  · rw [frameForm_repeat hb hp, exec_frameRepeat h]
    exact (execDecode_repeat h hb hp).symm
  · rw [frameForm_new hb hp, exec_newForm h, newPath_framePayload]
    exact (execDecode_newPath h hb hp).symm

/-- Settles O37: a refused argument is refused in every form, and an accepted list's row is DECODE. -/
theorem frameFormsAreDecode : Obligations.FrameFormsAreDecode := by
  intro s c hc
  cases ha : decodeArgument s with
  | error r =>
    have hform : isDecodeForm (decode s.cfgExt s.cfgTol c s.buffer) = true := decode_isDecodeForm (by simp [hc])
    rw [(exec_decodeForm (iv := []) hform).1 r ha, (exec_decodeForm (iv := []) (i := .decode) rfl).1 r ha]
  | ok iv =>
    have h := decodeArgument_ok.mp ha
    rw [decode_of_durations hc h.durations, exec_frameForm h]

end Sys2Proof.Machine
end

section
/-! The encoder's frames, read back: by the instruction decoder (30_encoding.md R60, R65, R72) and by DECODE
(95_test_vectors.md L1-8). The 1687.5 of a 1-bit is presumed (assumption 15). -/

namespace Sys2Proof

variable {tol : Micros}

/-! ## The encoder's frames at their place -/

theorem pauseIsNew_afterShorts (h : 0 < tol) (n : Nat) (p : Payload) :
    PauseIsNew tol (List.replicate n (1125 / 2) ++ nominalFrame p) n :=
  ⟨4500, getElem?_afterShorts 1, win_self (by norm_num) h⟩

/-- Up to tolerance 1/2 the nominal Repeat pause, 2250, is outside `W_NEW` (R113). -/
theorem pauseIsRepeat_afterShorts (h : 0 < tol) (h2 : tol ≤ 1 / 2) (n : Nat) :
    PauseIsRepeat tol (List.replicate n (1125 / 2) ++ repeatFrame) n := by
  refine ⟨2250, getElem?_afterShorts 1, ?notNew, ?inRepCls⟩
  case notNew =>
    rw [win_eq_false, le_abs]
    right
    norm_num
    linarith
  case inRepCls =>
    rw [win_eq_true]
    simpa using h

/-- Up to tolerance 2 the samples of the nominal frame are its payload's bits (R130). -/
theorem payloadAt_afterShorts (h : 0 < tol) (h2 : tol ≤ 2) (n : Nat) (p : Payload) :
    PayloadAt tol (List.replicate n (1125 / 2) ++ nominalFrame p) n p := by
  intro k hk
  refine ⟨if p.getLsbD k then 3375 / 2 else 1125 / 2, ?sample, ?bit⟩
  case sample =>
    rw [Nat.add_assoc, getElem?_afterShorts]
    exact (nominalFrame_pair p hk).2
  case bit =>
    cases p.getLsbD k
    · simp [win_self (r := 1125 / 2) (by norm_num) h]
    · simp [win_oneNominal h2]

theorem convert_afterShorts (h : 0 < tol) (h2 : tol ≤ 2) (n : Nat) (p : Payload) :
    convert tol (List.replicate n (1125 / 2) ++ nominalFrame p) n = some p :=
  (payloadAt_afterShorts h h2 n p).convert (by simp)

/-! ## The decoder reads what the encoder wrote -/

variable {ext : Bool}

theorem decode_placed_nominalFrame (h : 0 < tol) (h2 : tol ≤ 1 / 2) (n : Nat) (p : Payload) :
    decode ext tol decodeCommand (placed n (nominalFrame p)) = newForm ext n p := by
  rw [decode_of_durations rfl (durations_placed nominalFrame_nonneg), params_tShort,
    frameForm_new (firstBurst_afterShorts h h2 n (nominalFrame_burst p)) (pauseIsNew_afterShorts h n p),
    framePayload_eq (convert_afterShorts h (by linarith) n p)]

theorem decode_placed_repeatFrame (h : 0 < tol) (h2 : tol ≤ 1 / 2) (n : Nat) :
    decode ext tol decodeCommand (placed n repeatFrame) = .frameRepeat n := by
  rw [decode_of_durations rfl (durations_placed repeatFrame_nonneg), params_tShort,
    frameForm_repeat (firstBurst_afterShorts h h2 n rfl) (pauseIsRepeat_afterShorts h h2 n)]

/-- Settles O50, instruction by instruction. -/
theorem decodeEncodeRoundTrip : Obligations.DecodeEncodeRoundTrip := by
  intro i ext tol h h2 hstd hext
  cases i with
  | init e t => cases e <;> rfl
  | decode => rfl
  | frameNewStd start a b c k =>
    obtain rfl := hstd start a b c k rfl
    simp only [encode, decode_placed_nominalFrame h h2, newForm_std, addrField_std, addrInvField_std, cmdField_std,
      cmdInvField_std]
  | frameNewExt start e c k =>
    obtain rfl := hext start e c k rfl
    simp only [encode, decode_placed_nominalFrame h h2, newForm_ext, extAddrField_ext, cmdField_ext, cmdInvField_ext]
  | frameRepeat start => exact decode_placed_repeatFrame h h2 start

/-- Settles O51: the two New words are nominal frames, read back as above; the decoder is evaluated on the rest. -/
theorem tableWordsDecode : Obligations.TableWordsDecode := by
  have hframe (ext : Bool) (p : Payload) :
      decode ext (5 / 16) decodeCommand (placed 0 (nominalFrame p)) = newForm ext 0 p :=
    decode_placed_nominalFrame (by norm_num) (by norm_num) 0 p
  refine ⟨rfl, rfl, rfl, ?std, hframe true 0x52ADC001#32, ?repeatFrame⟩
  case std => exact congrArg some (hframe false 0x52ADFF00#32)
  case repeatFrame => decide +kernel

end Sys2Proof

namespace Sys2Proof.Machine

variable {s : State} {p : Payload}

/-- A nominal frame starts its list, so that the first element is the burst whatever the windows overlap. -/
theorem firstBurst_nominalFrame {tol : Micros} (h : 0 < tol) (p : Payload) : FirstBurst tol (nominalFrame p) 0 :=
  ⟨⟨9000, nominalFrame_burst p, win_self (by norm_num) h⟩, fun _ hj => absurd hj (Nat.not_lt_zero _)⟩

/-- DECODE of a nominal frame converts its payload and checks it. -/
theorem execDecode_nominalFrame (hs : DecodeReady (nominalFrame p) s) (h : 0 < s.cfgTol) (h2 : s.cfgTol ≤ 2) :
    execDecode s = .next (checkPayload (newFrameScratch 0 p s)) :=
  execDecode_new hs (firstBurst_nominalFrame h p) (pauseIsNew_afterShorts h 0 p)
    ⟨by simp, 1125 / 2, nominalFrame_terminator p, win_self (by norm_num) h⟩ (payloadAt_afterShorts h h2 0 p)

/-- A nominal frame whose payload passes the checks is committed (R160). -/
theorem exec_decode_nominalFrame (hs : DecodeReady (nominalFrame p) s) (h : 0 < s.cfgTol) (h2 : s.cfgTol ≤ 2)
    (hc : ChecksPass s.cfgExt p) :
    ∃ t, exec .decode s = .next t ∧ t.res = (true, ResultWord s.cfgExt p, .okNew) ∧ t.lastValid = true ∧
      t.lastCode = ResultWord s.cfgExt p := by
  refine ⟨commitPayload (newFrameScratch 0 p s), ?_, commitPayload_registers _⟩
  rw [← checkPayload_pass hc]
  exact execDecode_nominalFrame hs h h2

/-- Settles O52: the payload of `NEC(addr, cmd)` passes the checks, and its result word is the address and command. -/
theorem nominalFrameRoundTrip : Obligations.NominalFrameRoundTrip := by
  refine ⟨fun s a c hs hext h h2 => ?std, fun s a c hs hext h h2 => ?ext⟩
  case std =>
    have hc : ChecksPass s.cfgExt (stdPayload a (~~~a) c (~~~c)) := by
      simp [checksPass_iff_fields, byte_xor_not_self]
    simpa [hext, resultWord_std] using exec_decode_nominalFrame hs h h2 hc
  case ext =>
    have hc : ChecksPass s.cfgExt (extPayload a c (~~~c)) := by
      simp [checksPass_iff_fields, byte_xor_not_self, hext]
    simpa [hext, resultWord_ext] using exec_decode_nominalFrame hs h h2 hc

end Sys2Proof.Machine
end

section
/-! The comparator and its windows (41_comparator.md): the open interval a window is, where two windows cannot meet, the
tolerances that empty a window or stretch it to 0, and the scaling law with what it says of a nominal frame. -/

namespace Sys2Proof

variable {tol v r b r' b' f : Micros}

/-! ## A window is an open interval (R100) -/

theorem win_iff_between : win tol v r b = true ↔ r - b * tol < v ∧ v < r + b * tol := by
  rw [win_eq_true, abs_lt]
  constructor <;> rintro ⟨hlo, hhi⟩ <;> constructor <;> linarith

/-- Settles O6: the definition, the interval it is, and the value at the edge of `W_BURST`, which is outside. -/
theorem comparatorIsStrictAndExact : Obligations.ComparatorIsStrictAndExact := by
  refine ⟨fun _ _ _ _ => win_eq_true, fun _ _ _ _ => win_iff_between, ?edge⟩
  case edge =>
    rw [win_eq_false, le_abs]
    right
    norm_num

/-! ## The windows at the default tolerance (R102) -/

theorem win_iff_of_ends {lo hi : Micros} (hlo : r - b * tol = lo) (hhi : r + b * tol = hi) :
    win tol v r b = true ↔ lo < v ∧ v < hi := by
  rw [win_iff_between, hlo, hhi]

theorem inBurst_default : inBurst (5 / 16) v = true ↔ 12375 / 2 < v ∧ v < 23625 / 2 :=
  win_iff_of_ends (by norm_num) (by norm_num)

theorem inNew_default : inNew (5 / 16) v = true ↔ 12375 / 4 < v ∧ v < 23625 / 4 :=
  win_iff_of_ends (by norm_num) (by norm_num)

theorem inRepCls_default : inRepCls (5 / 16) v = true ↔ 3375 / 4 < v ∧ v < 14625 / 4 :=
  win_iff_of_ends (by norm_num) (by norm_num)

theorem inRepVal_default : inRepVal (5 / 16) v = true ↔ 12375 / 8 < v ∧ v < 23625 / 8 :=
  win_iff_of_ends (by norm_num) (by norm_num)

theorem inShort_default : inShort (5 / 16) v = true ↔ 12375 / 32 < v ∧ v < 23625 / 32 :=
  win_iff_of_ends (by norm_num) (by norm_num)

/-- Settles O8, window by window. -/
theorem windowsAtDefaultTolerance : Obligations.WindowsAtDefaultTolerance := fun _ =>
  ⟨inBurst_default, inNew_default, inRepCls_default, inRepVal_default, inShort_default⟩

/-! ## The classifier's Repeat window (R103) -/

/-- Settles O9: the base is in the definition, and twice the distance against twice the base is the same comparison. -/
theorem repeatWindowUsesNewBase : Obligations.RepeatWindowUsesNewBase := by
  refine ⟨fun _ _ => win_eq_true, fun d => ?twice⟩
  case twice =>
    have htwice : |2 * d| = 2 * |d| := by rw [abs_mul, abs_two]
    rw [inRepCls, inRepVal, win_eq_true, win_eq_true, params_tPauseRep, params_tPauseNew, add_sub_cancel_left,
      add_sub_cancel_left, htwice]
    constructor <;> intro h <;> linarith

/-! ## Windows that do not meet (R104) -/

/-- A window that ends where another begins, or before, holds nothing of it. -/
theorem win_false_of_above (h : win tol v r b = true) (hle : r' + b' * tol ≤ r - b * tol) :
    win tol v r' b' = false := by
  obtain ⟨hlo, -⟩ := win_iff_between.mp h
  rw [win_eq_false, le_abs]
  left
  linarith

/-- A window that begins where another ends, or after, holds nothing of it. -/
theorem win_false_of_below (h : win tol v r b = true) (hle : r + b * tol ≤ r' - b' * tol) :
    win tol v r' b' = false := by
  obtain ⟨-, hhi⟩ := win_iff_between.mp h
  rw [win_eq_false, le_abs]
  right
  linarith

/-- Two intervals, the first reaching further up and the second further down, meet between the first's lower end and the
second's upper end. -/
theorem between_and_between {lo hi lo' hi' : Micros} (hlo : lo' ≤ lo) (hhi : hi' ≤ hi) :
    ((lo < v ∧ v < hi) ∧ lo' < v ∧ v < hi') ↔ lo < v ∧ v < hi' := by
  constructor
  · rintro ⟨⟨hl, -⟩, -, hh⟩
    exact ⟨hl, hh⟩
  · rintro ⟨hl, hh⟩
    exact ⟨⟨hl, hh.trans_le hhi⟩, hlo.trans_lt hl, hh⟩

/-- Settles O10: `W_BURST` lies above every other window and `W_SHORT` below, and the two overlaps are intersections of
intervals. -/
theorem windowOverlaps : Obligations.WindowOverlaps := by
  refine ⟨fun v => ?newRepeat, fun v h => ?burst, fun v h => ?short, fun v => ?burstNew⟩
  case newRepeat =>
    rw [inNew_default, inRepCls_default]
    exact between_and_between (by norm_num) (by norm_num)
  case burst => refine ⟨?_, ?_, ?_, ?_⟩ <;> exact win_false_of_above h (by norm_num)
  case short => refine ⟨?_, ?_, ?_, ?_⟩ <;> exact win_false_of_below h (by norm_num)
  case burstNew =>
    have hburst : inBurst (1 / 2) v = true ↔ 4500 < v ∧ v < 13500 := win_iff_of_ends (by norm_num) (by norm_num)
    have hnew : inNew (1 / 2) v = true ↔ 2250 < v ∧ v < 6750 := win_iff_of_ends (by norm_num) (by norm_num)
    rw [hburst, hnew]
    exact between_and_between (by norm_num) (by norm_num)

/-! ## Degenerate tolerances (R101) -/

theorem win_false_of_nonpos_tol (ht : tol ≤ 0) (hb : 0 < b) : win tol v r b = false :=
  win_eq_false.mpr ((mul_nonpos_of_nonneg_of_nonpos hb.le ht).trans (abs_nonneg _))

/-- Above tolerance 1 a window whose base is its reference reaches below 0. -/
theorem win_of_one_lt_tol (ht : 1 < tol) (hr : 0 < r) (h0 : 0 ≤ v) (hv : v ≤ r) : win tol v r r = true := by
  have hwide : r < r * tol := lt_mul_of_one_lt_right hr ht
  exact win_iff_between.mpr ⟨by linarith, by linarith⟩

/-! ## The scaling law (R105) -/

theorem win_scaled (hr : 0 < r) : win tol (f * r) r r = true ↔ |f - 1| < tol := by
  have hdist : |f * r - r| = r * |f - 1| := by
    rw [← abs_of_pos hr, ← abs_mul, abs_of_pos hr]
    ring_nf
  rw [win_eq_true, hdist, mul_lt_mul_iff_right₀ hr]

/-- Settles O11: the distance of `f * R` from `R` is `R` times that of `f` from 1. -/
theorem scalingLaw : Obligations.ScalingLaw := fun _ _ _ hr _ => win_scaled hr

/-! ## A scaled frame (R105, 90_conflicts.md C6) -/

variable {frame : List Micros}

theorem getElem?_scaled {i : Nat} (h : frame[i]? = some v) : (frame.map (f * ·))[i]? = some (f * v) := by
  rw [List.getElem?_map, h, Option.map_some]

theorem firstBurst_scaled (hf : |f - 1| < tol) (h0 : frame[0]? = some 9000) :
    FirstBurst tol (frame.map (f * ·)) 0 :=
  ⟨⟨f * 9000, getElem?_scaled h0, (win_scaled (by norm_num)).mpr hf⟩, fun _ hj => absurd hj (Nat.not_lt_zero _)⟩

theorem pauseIsNew_scaled (hf : |f - 1| < tol) (p : Payload) :
    PauseIsNew tol ((nominalFrame p).map (f * ·)) 0 :=
  ⟨f * 4500, getElem?_scaled (nominalFrame_pause p), (win_scaled (by norm_num)).mpr hf⟩

theorem countAndTerminatorOk_scaled (hf : |f - 1| < tol) (p : Payload) :
    CountAndTerminatorOk tol ((nominalFrame p).map (f * ·)) 0 :=
  ⟨by simp, f * (1125 / 2), getElem?_scaled (nominalFrame_terminator p), (win_scaled (by norm_num)).mpr hf⟩

/-- The scaled Repeat pause stays below `W_NEW`, and `W_REP_CLS` is wider than the scaling law asks. -/
theorem pauseIsRepeat_scaled (hf : |f - 1| < 5 / 16) : PauseIsRepeat (5 / 16) (repeatFrame.map (f * ·)) 0 := by
  have hown : win (5 / 16) (f * 2250) 2250 2250 = true := (win_scaled (by norm_num)).mpr hf
  refine ⟨f * 2250, rfl, win_false_of_below hown (by norm_num), ?inRepCls⟩
  case inRepCls =>
    rw [win_eq_true] at hown ⊢
    exact hown.trans (by norm_num)

/-- A scaled 1-bit space (presumed 1687.5, assumption 15) stays above `W_SHORT`. -/
theorem win_oneNominal_scaled (hf : |f - 1| < 5 / 16) : win (5 / 16) (f * (3375 / 2)) (1125 / 2) (1125 / 2) = false :=
  win_false_of_above ((win_scaled (r := 3375 / 2) (by norm_num)).mpr hf) (by norm_num)

theorem payloadAt_scaled (hf : |f - 1| < 5 / 16) (p : Payload) :
    PayloadAt (5 / 16) ((nominalFrame p).map (f * ·)) 0 p := by
  intro k hk
  refine ⟨f * if p.getLsbD k then 3375 / 2 else 1125 / 2, ?sample, ?bit⟩
  case sample =>
    rw [Nat.zero_add]
    exact getElem?_scaled (nominalFrame_pair p hk).2
  case bit =>
    cases p.getLsbD k
    · simp [(win_scaled (r := 1125 / 2) (by norm_num)).mpr hf]
    · simp [win_oneNominal_scaled hf]

end Sys2Proof

namespace Sys2Proof.Machine

variable {s : State} {f : Micros}

/-- Settles O7: the empty windows leave no burst to find. -/
theorem degenerateTolerances : Obligations.DegenerateTolerances := by
  refine ⟨fun _ _ _ _ => win_false_of_nonpos_tol, fun s iv hs ht => ?decode, fun _ _ _ => win_of_one_lt_tol⟩
  case decode =>
    have hn : ∀ v ∈ iv, inBurst s.cfgTol v = false := fun v _ => win_false_of_nonpos_tol ht (by norm_num)
    exact ⟨_, execDecode_noBurst hs hn, rfl⟩

/-! ## DECODE of a scaled nominal frame -/

theorem execDecode_nominalFrame_scaled {p : Payload} (hs : DecodeReady ((nominalFrame p).map (f * ·)) s)
    (ht : s.cfgTol = 5 / 16) (hf : |f - 1| < 5 / 16) :
    execDecode s = .next (checkPayload (newFrameScratch 0 p s)) := by
  have hft : |f - 1| < s.cfgTol := ht ▸ hf
  exact execDecode_new hs (firstBurst_scaled hft (nominalFrame_burst p)) (pauseIsNew_scaled hft p)
    (countAndTerminatorOk_scaled hft p) (ht ▸ payloadAt_scaled hf p)

theorem execDecode_repeatFrame_scaled (hs : DecodeReady (repeatFrame.map (f * ·)) s) (ht : s.cfgTol = 5 / 16)
    (hf : |f - 1| < 5 / 16) :
    execDecode s = .next (repeatPath { s with scanI := 0, start := 0, mtype := .repeatMsg }) :=
  execDecode_repeat hs (firstBurst_scaled (ht ▸ hf) rfl) (ht ▸ pauseIsRepeat_scaled hf)

/-- Settles O53: both lists end in the same path, which does not look at the buffer; the unscaled frame is the one
scaled by 1. -/
theorem nominalFramesAreScaleInvariant : Obligations.NominalFramesAreScaleInvariant := by
  intro s f frame scaled hframe ht hlo hhi hs hs'
  have hf : |f - 1| < 5 / 16 := abs_lt.mpr ⟨by linarith, by linarith⟩
  have h1 : |(1 : Micros) - 1| < 5 / 16 := by norm_num
  have hs1 : DecodeReady (frame.map (1 * ·)) s := by simpa using hs
  obtain rfl | ⟨p, rfl⟩ := hframe
  · refine ⟨_, execDecode_repeatFrame_scaled hs1 ht h1, ?_⟩
    rw [← repeatPath_withBuffer]
    exact execDecode_repeatFrame_scaled hs' ht hf
  · refine ⟨_, execDecode_nominalFrame_scaled hs1 ht h1, ?_⟩
    rw [← checkPayload_withBuffer]
    exact execDecode_nominalFrame_scaled hs' ht hf

end Sys2Proof.Machine
end

section
/-! The locator and the classifier (42_locate_classify.md R110 to R114): which element each answer rests on, and where a
DECODE leaves the answers. -/

namespace Sys2Proof

variable {tol v p : Micros} {iv iv' : List Micros} {b : Nat}

/-! ## The locator -/

theorem inBurst_eq_false : inBurst tol v = false ↔ ¬ |v - 9000| < 9000 * tol := by
  rw [← Bool.not_eq_true]
  exact not_congr win_eq_true

theorem locate_eq_some_iff : locate tol iv = some b ↔ FirstBurst tol iv b := ⟨locate_eq_some, FirstBurst.locate⟩

theorem locate_eq_none_iff : locate tol iv = none ↔ ∀ v ∈ iv, ¬ |v - 9000| < 9000 * tol :=
  locateFrom_eq_none.trans (forall₂_congr fun _ _ => inBurst_eq_false)

/-- R111: where the first burst is rests on the elements up to it. -/
theorem FirstBurst.of_agree_upTo (hb : FirstBurst tol iv b) (heq : ∀ i ≤ b, iv[i]? = iv'[i]?) :
    FirstBurst tol iv' b := by
  obtain ⟨⟨v, hv, hburst⟩, hbefore⟩ := hb
  exact ⟨⟨v, heq b le_rfl ▸ hv, hburst⟩, fun j hj u hu => hbefore j hj u ((heq j hj.le).trans hu)⟩

/-- Settles O13: the first burst stays first when the elements up to it stay. -/
theorem locatorReadsOnlyItsPrefix : Obligations.LocatorReadsOnlyItsPrefix :=
  fun _ _ _ _ hl heq => ((locate_eq_some hl).of_agree_upTo heq).locate

/-! ## The classifier -/

theorem inNew_eq_true : inNew tol p = true ↔ |p - 4500| < 4500 * tol := win_eq_true

theorem inRepCls_eq_true : inRepCls tol p = true ↔ |p - 2250| < 4500 * tol := win_eq_true

theorem classify_eq_newMsg : classify tol p = .newMsg ↔ |p - 4500| < 4500 * tol := by
  rw [← inNew_eq_true, classify_eq]
  split_ifs <;> simp [*]

theorem classify_eq_repeatMsg :
    classify tol p = .repeatMsg ↔ ¬ |p - 4500| < 4500 * tol ∧ |p - 2250| < 4500 * tol := by
  rw [← inNew_eq_true, ← inRepCls_eq_true, classify_eq]
  split_ifs <;> simp [*]

theorem classify_eq_invalid :
    classify tol p = .invalid ↔ ¬ |p - 4500| < 4500 * tol ∧ ¬ |p - 2250| < 4500 * tol := by
  rw [← inNew_eq_true, ← inRepCls_eq_true, classify_eq]
  split_ifs <;> simp [*]

/-- R113: between the lower end of `W_NEW` and the upper end of `W_REP_CLS` a pause is in both, and New. -/
theorem classify_overlap (hlo : 12375 / 4 < p) (hhi : p < 14625 / 4) :
    classify (5 / 16) p = .newMsg ∧ inRepCls (5 / 16) p = true := by
  have hnew : inNew (5 / 16) p = true := inNew_default.mpr ⟨hlo, by linarith⟩
  exact ⟨classify_eq_newMsg.mpr (inNew_eq_true.mp hnew), inRepCls_default.mpr ⟨by linarith, hhi⟩⟩

/-- The class of the frame at `b`: its pause's, and Invalid where the pause is missing (R112, R114). -/
def pauseClass (tol : Micros) (iv : List Micros) (b : Nat) : MType :=
  (iv[b + 1]?).elim .invalid (classify tol)

theorem pauseClass_noPause (h : iv.length = b + 1) : pauseClass tol iv b = .invalid := by
  simp [pauseClass, h]

theorem PauseIsNew.pauseClass (h : PauseIsNew tol iv b) : Sys2Proof.pauseClass tol iv b = .newMsg := by
  obtain ⟨p, hp, -, hc⟩ := h.classify
  simp [Sys2Proof.pauseClass, hp, hc]

theorem PauseIsRepeat.pauseClass (h : PauseIsRepeat tol iv b) : Sys2Proof.pauseClass tol iv b = .repeatMsg := by
  obtain ⟨p, hp, hc⟩ := h.classify
  simp [Sys2Proof.pauseClass, hp, hc]

theorem PauseIsInvalid.pauseClass (h : PauseIsInvalid tol iv b) : Sys2Proof.pauseClass tol iv b = .invalid := by
  obtain ⟨p, hp, hc⟩ := h.classify
  simp [Sys2Proof.pauseClass, hp, hc]

end Sys2Proof

namespace Sys2Proof.Machine

variable {s : State} {iv : List Micros} {b : Nat}

/-- A DECODE with a burst completes with its index in START and the class of its frame in MTYPE, whatever follows. -/
theorem execDecode_burst (h : DecodeReady iv s) (hb : FirstBurst s.cfgTol iv b) :
    ∃ t, execDecode s = .next t ∧ t.start = b ∧ t.mtype = pauseClass s.cfgTol iv b := by
  obtain ⟨hn, -⟩ | ⟨b', hb', hkind⟩ := execDecode_cases h
  · have hl : locate s.cfgTol iv = none := locateFrom_eq_none.mpr hn
    simp [hb.locate] at hl
  obtain rfl := hb.unique hb'
  obtain ⟨hp, e⟩ | ⟨hp, e⟩ | ⟨hp, e⟩ | ⟨hp, -, e⟩ | ⟨hp, -, -, e⟩ | ⟨hp, -, w, -, e⟩ := hkind
  · exact ⟨_, e, rfl, (pauseClass_noPause hp).symm⟩
  · exact ⟨_, e, rfl, hp.pauseClass.symm⟩
  · exact ⟨_, e, by simp, by simp [hp.pauseClass]⟩
  · exact ⟨_, e, rfl, hp.pauseClass.symm⟩
  · exact ⟨_, e, rfl, hp.pauseClass.symm⟩
  · exact ⟨_, e, by simp, by simp [hp.pauseClass]⟩

/-- Settles O12: the locator's two answers are the two kinds of list that a DECODE meets first. -/
theorem locatorFindsFirstBurst : Obligations.LocatorFindsFirstBurst := by
  refine ⟨fun tol iv => ⟨fun b => locate_eq_some_iff, locate_eq_none_iff⟩, fun s iv hs => ?decode⟩
  case decode =>
    cases hl : locate s.cfgTol iv with
    | none =>
      refine ⟨_, execDecode_noBurst hs (locateFrom_eq_none.mp hl), fun b hb => ?_, fun _ => rfl⟩
      simp [hb.locate] at hl
    | some b =>
      obtain ⟨t, e, hstart, -⟩ := execDecode_burst hs (locate_eq_some hl)
      refine ⟨t, e, fun b' hb' => hstart.trans ((locate_eq_some hl).unique hb'), fun hn => ?_⟩
      simp [locate_eq_none_iff.mpr hn] at hl

/-- Settles O14: MTYPE after a DECODE is the class of the frame, and Invalid is the end of the DECODE. -/
theorem classifierTestsNewFirst : Obligations.ClassifierTestsNewFirst := by
  refine ⟨fun tol p => ⟨classify_eq_newMsg, classify_eq_repeatMsg, classify_eq_invalid⟩,
    fun p => classify_overlap, fun s iv b hs hb _ => ?decode⟩
  case decode =>
    obtain ⟨t, e, -, hclass⟩ := execDecode_burst hs hb
    refine ⟨t, e, fun hp => hclass.trans hp.pauseClass, fun hp => hclass.trans hp.pauseClass, fun hp => ?invalid⟩
    case invalid =>
      rw [execDecode_invalid hs hb hp, Host.Outcome.next.injEq] at e
      exact e ▸ ⟨rfl, rfl⟩

/-- Settles O15, from what DECODE does when the burst has no pause after it. -/
theorem missingPauseIsStructShort : Obligations.MissingPauseIsStructShort :=
  fun _ _ _ hs hb hlen => ⟨_, execDecode_noPause hs hb hlen.symm, rfl, rfl, rfl, rfl⟩

end Sys2Proof.Machine
end

section
/-! The structural validator (43_frame_validate.md R120 to R122, R124; R225): the checks of its two branches in order,
the terminator index, which does not move with the frame, and the intervals after a full New frame. -/

namespace Sys2Proof

variable {tol p g : Micros} {iv extra : List Micros} {b : Nat} {w : Payload}

/-! ## The two branches -/

/-- Settles O16: the count, then, with both reads in range, the two windows. -/
theorem newValidatorChecksInOrder : Obligations.NewValidatorChecksInOrder := by
  refine fun tol iv s => ⟨validNew_short, fun hn => ?full⟩
  case full =>
    obtain ⟨p, t, hp, ht, e⟩ := validNew_full (tol := tol) hn
    rw [e]
    exact ⟨p, t, hp, ht, fun hnew => by simp [hnew], fun hnew hs => by simp [hnew, hs],
      fun hnew hs => by simp [hnew, hs]⟩

theorem validRep_short {s : Nat} (h : iv.length - s < 3) : validRep tol iv s = some (.fail .structShort) := by
  simp [validRep, h]

/-- With a full count both reads are in range, and the windows decide. -/
theorem validRep_full {s : Nat} (h : 3 ≤ iv.length - s) :
    ∃ p t, iv[s + 1]? = some p ∧ iv[2]? = some t ∧ validRep tol iv s =
      some (if inRepVal tol p then (if inShort tol t then .pass else .fail .malformed) else .fail .malformed) := by
  have h1 : s + 1 < iv.length := by omega
  have h2 : 2 < iv.length := by omega
  refine ⟨iv[s + 1], iv[2], List.getElem?_eq_getElem h1, List.getElem?_eq_getElem h2, ?_⟩
  simp [validRep, Nat.not_lt.mpr h, h1, h2]

theorem inRepVal_eq_true : inRepVal tol p = true ↔ |p - 2250| < 2250 * tol := win_eq_true

/-- Settles O17: the count, then, with both reads in range, the two windows, the pause's with its own reference 2250 as
the base. -/
theorem repeatValidatorChecksInOrder : Obligations.RepeatValidatorChecksInOrder := by
  refine fun tol iv s => ⟨validRep_short, fun hn => ?full⟩
  case full =>
    obtain ⟨p, t, hp, ht, e⟩ := validRep_full (tol := tol) hn
    simp only [e, ← inRepVal_eq_true]
    exact ⟨p, t, hp, ht, fun hrep => by simp [hrep], fun hrep hs => by simp [hrep, hs],
      fun hrep hs => by simp [hrep, hs]⟩

/-! ## A nominal frame behind one interval (R122) -/

/-- Behind one interval the element at absolute index 66 is the frame's element 65, the sample of `b(31)`. -/
theorem terminator_behindOne (g : Micros) (w : Payload) :
    (g :: nominalFrame w)[66]? = some (if w.getLsbD 31 then 3375 / 2 else 1125 / 2) :=
  (nominalFrame_pair w (k := 31) (by norm_num)).2

theorem pauseIsNew_cons : PauseIsNew tol (g :: iv) (b + 1) ↔ PauseIsNew tol iv b := Iff.rfl

/-- At every tolerance above 0 and up to 2 the terminator check answers for `b(31)`. -/
theorem countAndTerminatorOk_behindOne (h : 0 < tol) (h2 : tol ≤ 2) :
    CountAndTerminatorOk tol (g :: nominalFrame w) 1 ↔ w.getLsbD 31 = false := by
  have hcount : 67 ≤ (g :: nominalFrame w).length - 1 := by simp
  simp only [CountAndTerminatorOk, params_nNew, params_idxTermNew, params_tShort, terminator_behindOne,
    Option.some.injEq, exists_eq_left', hcount, true_and]
  cases w.getLsbD 31
  · simp [win_self (r := 1125 / 2) (by norm_num) h]
  · simp [win_oneNominal h2]

/-! ## Intervals after the frame (R124) -/

theorem getElem?_append_of_some {i : Nat} {v : Micros} (h : iv[i]? = some v) : (iv ++ extra)[i]? = some v := by
  rwa [List.getElem?_append_left (List.getElem?_eq_some_iff.mp h).1]

theorem FirstBurst.append (h : FirstBurst tol iv b) (extra : List Micros) : FirstBurst tol (iv ++ extra) b :=
  h.of_agree_upTo fun _ hi => (List.getElem?_append_left (hi.trans_lt h.lt_length)).symm

theorem PauseIsNew.append (h : PauseIsNew tol iv b) (extra : List Micros) : PauseIsNew tol (iv ++ extra) b := by
  obtain ⟨p, hp, hnew⟩ := h
  exact ⟨p, getElem?_append_of_some hp, hnew⟩

theorem PayloadAt.append (h : PayloadAt tol iv b w) (extra : List Micros) : PayloadAt tol (iv ++ extra) b w := by
  intro k hk
  obtain ⟨v, hv, hbit⟩ := h k hk
  exact ⟨v, getElem?_append_of_some hv, hbit⟩

theorem le_length_append_sub {n : Nat} (hn : n ≤ iv.length - b) (extra : List Micros) :
    n ≤ (iv ++ extra).length - b := by
  rw [List.length_append]
  omega

/-- With a full count the terminator stands in the list already. -/
theorem countAndTerminatorOk_append (hn : 67 ≤ iv.length - b) :
    CountAndTerminatorOk tol (iv ++ extra) b ↔ CountAndTerminatorOk tol iv b := by
  have hterm : (iv ++ extra)[66]? = iv[66]? := List.getElem?_append_left (by omega)
  simp only [CountAndTerminatorOk, params_nNew, params_idxTermNew, hterm, hn, le_length_append_sub hn extra]

end Sys2Proof

namespace Sys2Proof.Machine

variable {s : State} {iv : List Micros} {b : Nat}

theorem checkPayload_not_malformed (s : State) : (checkPayload s).resStatus ≠ .malformed := by
  obtain ⟨-, e⟩ | ⟨-, e⟩ := checkPayload_cases s <;> simp [e]

/-- R120, R203: once the pause is New and the count full, the terminator alone decides on MALFORMED. -/
theorem execDecode_malformed_iff (h : DecodeReady iv s) (hb : FirstBurst s.cfgTol iv b)
    (hp : PauseIsNew s.cfgTol iv b) (hn : 67 ≤ iv.length - b) :
    ∃ t, execDecode s = .next t ∧ (t.resStatus = .malformed ↔ ¬ CountAndTerminatorOk s.cfgTol iv b) := by
  by_cases ht : CountAndTerminatorOk s.cfgTol iv b
  · obtain ⟨w, -, hw⟩ := convert_spec (tol := s.cfgTol) hn
    exact ⟨_, execDecode_new h hb hp ht hw, by simp [ht, checkPayload_not_malformed]⟩
  · exact ⟨_, execDecode_malformed h hb hp hn ht, by simp [ht]⟩

/-- Settles O18: behind one interval the frame starts at 1, and the terminator check reads the sample of `b(31)`. -/
theorem terminatorIndexIsAbsolute : Obligations.TerminatorIndexIsAbsolute := by
  intro s g p htol hg hs
  have hpos : 0 < s.cfgTol := by rw [htol]; norm_num
  have hle : s.cfgTol ≤ 2 := by rw [htol]; norm_num
  have hb : FirstBurst s.cfgTol (g :: nominalFrame p) 1 :=
    firstBurst_cons_succ.mpr ⟨htol ▸ hg, firstBurst_nominalFrame hpos p⟩
  have hp : PauseIsNew s.cfgTol (g :: nominalFrame p) 1 :=
    pauseIsNew_cons.mpr (pauseIsNew_afterShorts hpos 0 p)
  obtain ⟨t, e, hstatus⟩ := execDecode_malformed_iff hs hb hp (by simp)
  refine ⟨t, e, hstatus.trans ?_⟩
  rw [countAndTerminatorOk_behindOne hpos hle, Bool.not_eq_false]

/-- Settles O19: the longer list has the same burst, pause, terminator and payload, and the New path's end does not look
at the buffer. -/
theorem trailingIntervalsAreIgnored : Obligations.TrailingIntervalsAreIgnored := by
  intro s iv extra b longer hs hs' hb hp hn
  have hb' := hb.append extra
  have hp' := hp.append extra
  by_cases ht : CountAndTerminatorOk s.cfgTol iv b
  · obtain ⟨w, -, hw⟩ := convert_spec (tol := s.cfgTol) hn
    have e' := execDecode_new hs' hb' hp' ((countAndTerminatorOk_append hn).mpr ht) (hw.append extra)
    exact ⟨_, execDecode_new hs hb hp ht hw, by rw [← checkPayload_withBuffer]; exact e'⟩
  · have ht' := mt (countAndTerminatorOk_append (extra := extra) hn).mp ht
    exact ⟨_, execDecode_malformed hs hb hp hn ht,
      execDecode_malformed hs' hb' hp' (le_length_append_sub hn extra) ht'⟩

end Sys2Proof.Machine
end

section
/-! The pulse-to-bit converter (44_bit_convert.md R130, R131): a bit is 0 exactly when its sample is in `W_SHORT`, in the
converter's answer and in the PAYLOAD that a DECODE leaves. -/

namespace Sys2Proof

variable {tol v : Micros} {iv : List Micros} {b : Nat} {w : Payload}

theorem sampleBit_eq_false : sampleBit tol v = false ↔ |v - 1125 / 2| < 1125 / 2 * tol := by
  rw [sampleBit, Bool.not_eq_false']
  exact win_eq_true

/-- The bits of a frame's payload, with `W_SHORT` written out. -/
theorem PayloadAt.bit_eq_false_iff (h : PayloadAt tol iv b w) {k : Nat} (hk : k < 32) :
    ∃ v, iv[b + 3 + 2 * k]? = some v ∧ (w.getLsbD k = false ↔ |v - 1125 / 2| < 1125 / 2 * tol) := by
  obtain ⟨v, hv, hbit⟩ := h k hk
  have hsample : w.getLsbD k = sampleBit tol v := hbit
  exact ⟨v, hv, hsample ▸ sampleBit_eq_false⟩

end Sys2Proof

namespace Sys2Proof.Machine

/-- Settles O21: the converter answers the payload of the frame, and CHECK, whichever way it goes, leaves that payload
in PAYLOAD. -/
theorem converterSamplesSecondElements : Obligations.ConverterSamplesSecondElements := by
  refine ⟨fun tol iv s hn => ?converter, fun s iv b hs hb hp ht => ?decode⟩
  case converter =>
    obtain ⟨w, hconv, hw⟩ := convert_spec (tol := tol) hn
    exact ⟨w, hconv, fun _ hk => hw.bit_eq_false_iff hk⟩
  case decode =>
    obtain ⟨w, -, hw⟩ := convert_spec (tol := s.cfgTol) ht.1
    refine ⟨_, execDecode_new hs hb hp ht hw, fun k hk => ?_⟩
    rw [checkPayload_payload, newFrameScratch_payload]
    exact hw.bit_eq_false_iff hk

end Sys2Proof.Machine
end

section
/-! The complement checks and the packer as functions of a payload (45_redundancy_pack.md R140, R144, R145): complementary
bytes, the source's loop over a bit slice, and the range of the packed word. -/

namespace Sys2Proof

variable (a b c k : Byte) (e : BitVec 16) (w : Payload)

/-! ## Complementary bytes -/

/-- Settles O22, by comparing the exclusive-or with `0xFF` bit by bit. -/
theorem complementMeansEveryBitDiffers : Obligations.ComplementMeansEveryBitDiffers := by
  intro x y
  rw [complementary, beq_iff_eq, Machine.byte_xor_eq_ff]

/-! ## The source's loop -/

/-- A slice one bit longer has the next bit of the payload on top. -/
theorem extractLsb'_succ_toNat (i n : Nat) :
    (w.extractLsb' i (n + 1)).toNat = (w.getLsbD (i + n)).toNat * 2 ^ n + (w.extractLsb' i n).toNat := by
  have hbit : (w.getLsbD (i + n)).toNat = w.toNat >>> i / 2 ^ n % 2 := by
    rw [← Nat.toNat_testBit, Nat.testBit_shiftRight, BitVec.testBit_toNat]
  rw [BitVec.extractLsb'_toNat, BitVec.extractLsb'_toNat, hbit, Nat.mod_pow_succ]
  ring

/-- The loop's invariant: what it has accumulated moves up by the length of the slice that is still to come. -/
theorem packLoop_eq (i n acc : Nat) : packLoop w i n acc = acc * 2 ^ n + (w.extractLsb' i n).toNat := by
  induction n generalizing acc with
  | zero => simp [packLoop]
  | succ n ih =>
    rw [packLoop, ih, extractLsb'_succ_toNat]
    ring

/-- Settles O23: the word is `ResultWord`, and the loop starts with nothing accumulated. -/
theorem packerReconstructsFields : Obligations.PackerReconstructsFields := by
  refine ⟨Machine.pack_eq_resultWord false, Machine.pack_eq_resultWord true, fun w i n => ?loop⟩
  case loop => rw [packLoop_eq, Nat.zero_mul, Nat.zero_add]

/-! ## The range of the packed word -/

theorem pack_std_le : (pack false w).toNat ≤ 0xFFFF := by
  have hhigh := congrArg BitVec.toNat (Machine.pack_std_high w)
  rw [BitVec.extractLsb'_toNat, BitVec.toNat_zero] at hhigh
  omega

theorem pack_stdPayload : pack false (stdPayload a b c k) = (0#8 ++ a ++ c : BitVec 24) := by
  rw [Machine.pack_eq_resultWord, resultWord_std, addrField_std, cmdField_std]

theorem pack_extPayload : pack true (extPayload e c k) = (e ++ c : BitVec 24) := by
  rw [Machine.pack_eq_resultWord, resultWord_ext, extAddrField_ext, cmdField_ext]

theorem checksPass_stdPayload (ext : Bool) : ChecksPass ext (stdPayload a (~~~a) c (~~~c)) := by
  simp [checksPass_iff_fields, byte_xor_not_self]

theorem checksPass_extPayload : ChecksPass true (extPayload e c (~~~c)) := by
  simp [checksPass_iff_fields, byte_xor_not_self]

/-- Settles O24: the maxima are reached by all-ones address and command with their inverses. -/
theorem resultRanges : Obligations.ResultRanges := by
  refine ⟨pack_std_le, ⟨stdPayload 0xFF#8 (~~~0xFF#8) 0xFF#8 (~~~0xFF#8), checksPass_stdPayload _ _ _, ?std⟩,
    ⟨extPayload 0xFFFF#16 0xFF#8 (~~~0xFF#8), checksPass_extPayload _ _, ?ext⟩⟩
  case std => rw [pack_stdPayload]; decide
  case ext => rw [pack_extPayload]; decide

end Sys2Proof
end

section
/-! What an instruction that completes has done, and a busy block's refusals (46_decoder_fsm.md R150, R152, R160,
R162). -/

namespace Sys2Proof.Machine

variable {s t : State} {i : Instr}

/-- An instruction that completes is INIT with its write, or a DECODE form with its effect. -/
theorem exec_next_cases (h : exec i s = .next t) :
    (∃ ext tol, i = .init ext tol ∧ t = initialise ext tol s) ∨ DecodeEffect s t := by
  cases i with
  | init ext tol => exact .inl ⟨ext, tol, rfl, execInit_next h⟩
  | _ => exact .inr (exec_decodeForm_next rfl h)

/-- R162: every command is refused in a busy block. -/
theorem exec_busy (hf : s.fsm ≠ .idle) (i : Instr) : exec i s = .refused .hostMoveWhileBusy := by
  have harg : decodeArgument s = .error .hostMoveWhileBusy := if_neg hf
  cases i with
  | init ext tol => exact if_neg hf
  | _ => exact (exec_decodeForm (iv := []) rfl).1 _ harg

/-- Settles O2: in IDLE, INIT writes what `initialise` does; no DECODE form writes the configuration. -/
theorem initConfiguresAndForgets : Obligations.InitConfiguresAndForgets := by
  refine ⟨fun ext tol s hf => ?writes, fun i s t h => ?onlyInit, fun ext tol s hf => exec_busy hf _⟩
  case writes =>
    exact ⟨initialise ext tol s, if_pos hf, rfl, rfl, rfl, rfl, rfl, rfl, rfl, fun _ => rfl, rfl, rfl⟩
  case onlyInit =>
    obtain ⟨ext, tol, hi, -⟩ | ht := exec_next_cases h
    · exact .inr ⟨ext, tol, hi⟩
    · exact .inl ht.sameConfig

/-- Settles O28: CHECK passes, so COMMIT writes the packed word; and a DECODE form that does not end OK_NEW keeps
`LAST_*`. -/
theorem newFrameIsCommitted : Obligations.NewFrameIsCommitted := by
  refine ⟨fun s iv b w hs hb hp hct hw hc => ?commit, fun i s t h => ?onlyWrite⟩
  case commit =>
    have hpass : checkPayload (newFrameScratch b w s) = commitPayload (newFrameScratch b w s) := checkPayload_pass hc
    obtain ⟨hres, hvalid, hcode⟩ := commitPayload_registers (newFrameScratch b w s)
    have hframe := (newFrameScratch_only b w s).checkPayload.1
    rw [hpass] at hframe
    exact ⟨_, hpass ▸ execDecode_new hs hb hp hct hw, hres, hvalid, hcode, rfl, hframe⟩
  case onlyWrite =>
    obtain ⟨ext, tol, hi, rfl⟩ | ht := exec_next_cases h
    · exact .inr (.inr ⟨⟨ext, tol, hi⟩, rfl⟩)
    · by_cases hnew : t.resStatus = .okNew
      · exact .inr (.inl hnew)
      · exact .inl (ht.sameLast hnew)

/-- Settles O30: `finish` is an update of `RES_*` and `FSM`, and the results of a DECODE form agree with each other. -/
theorem finishEndsEveryDecode : Obligations.FinishEndsEveryDecode := by
  refine ⟨fun valid value status s => ⟨rfl, rfl, rfl, rfl⟩, fun i s t hi h => ?ends⟩
  case ends =>
    have ht := exec_decodeForm_next hi h
    obtain ⟨hvalid, hvalue, -⟩ := ht.resultInv
    obtain ⟨-, hidle, -⟩ := ht
    exact ⟨hidle, hvalid, hvalue⟩

/-- Settles O40: the commands are refused as instructions, and the collector's move by itself. -/
theorem hostMovesWhileBusyAreRefused : Obligations.HostMovesWhileBusyAreRefused := by
  refine fun s hf => ⟨exec_busy hf, fun c rest hh => ?command, fun iv rest hh => ?fill⟩
  case command => exact (step_command hh).trans (exec_busy (s := { s with host := rest }) hf _)
  case fill => exact (step_fillBuffer hh).trans (if_neg hf)

end Sys2Proof.Machine
end

section
/-! The Repeat path as DECODE and as FRAME_REPEAT take it (46_decoder_fsm.md R156, R226). -/

namespace Sys2Proof.Machine

variable {s : State}

theorem repeatPath_res (s : State) : (repeatPath s).res =
    if s.lastValid = true then (true, s.lastCode, .okRepeat) else (false, 0#24, .repeatWithoutPrior) := by
  obtain ⟨hv, e⟩ | ⟨hv, e⟩ := repeatPath_cases s <;> rw [e, hv] <;> rfl

theorem repeatPath_sameLast (s : State) : SameLast s (repeatPath s) := ⟨repeatPath_lastValid s, repeatPath_lastCode s⟩

/-- Settles O29: the path of a Repeat pause is `repeatPath`, whatever the list holds after the pause. -/
theorem repeatReturnsLastCode : Obligations.RepeatReturnsLastCode := by
  intro s iv b hs hb hp
  exact ⟨_, execDecode_repeat hs hb hp, repeatPath_sameLast _, repeatPath_mtype _, repeatPath_fsm _, repeatPath_res _⟩

/-- Settles O36: the form takes `repeatPath`, which differs from DECODE's in the scratch registers at most. -/
theorem repeatFrameCompletes : Obligations.RepeatFrameCompletes := by
  intro s iv start hs
  have heffect := (scratchOnly_update s start start .repeatMsg s.payload s.bitK).repeatPath
  exact ⟨_, exec_frameRepeat hs start, heffect.1, repeatPath_sameLast _, repeatPath_fsm _,
    fun hv => (repeatPath_res _).trans (if_pos hv), fun hv => (repeatPath_res _).trans (if_neg (by simp [hv]))⟩

end Sys2Proof.Machine
end

section
/-! A New frame decoded twice (46_decoder_fsm.md R163): a DECODE leaves the block ready for the same list, and the
outcome of a New frame rests on the list and the configuration. -/

namespace Sys2Proof.Machine

variable {s t s' t' : State} {iv : List Micros} {b : Nat} {w : Payload}

/-- A completed DECODE leaves the block ready for the list it had. -/
theorem DecodeEffect.ready (h : DecodeEffect s t) (hs : DecodeReady iv s) : DecodeReady iv t := by
  obtain ⟨⟨-, hbuffer, hmax, -, hready, -⟩, hidle, -⟩ := h
  have hb : t.buffer = s.buffer := memory_ext hbuffer
  obtain ⟨-, hr, hlen, hd⟩ := hs
  exact ⟨hidle, hready.trans hr, by rw [hb, hmax]; exact hlen, by rw [hb]; exact hd⟩

/-- DECODE of a New frame is the New path with the decoder's payload. -/
theorem execDecode_newFrameOutcome (hs : DecodeReady iv s) (hb : FirstBurst s.cfgTol iv b)
    (hp : PauseIsNew s.cfgTol iv b) :
    ∃ t, exec .decode s = .next t ∧ NewFrameOutcome iv b (framePayload s.cfgTol iv b) s t := by
  obtain ⟨t, ht, ho⟩ := newPath_outcome iv b (framePayload s.cfgTol iv b) s
  exact ⟨t, by rw [← ht, newPath_framePayload]; exact execDecode_newPath hs hb hp, ho⟩

/-- The result registers after a New frame are a function of the list, the payload and the configuration. -/
theorem NewFrameOutcome.res_eq (ho : NewFrameOutcome iv b w s t) (ho' : NewFrameOutcome iv b w s' t')
    (hc : SameConfig s s') : t'.res = t.res := by
  obtain ⟨hext, htol⟩ := hc
  obtain ⟨-, -, hshort', hmalformed', hcommitted', hmismatch'⟩ := ho'
  rw [htol] at hmalformed' hcommitted' hmismatch'
  rw [hext] at hcommitted' hmismatch'
  by_cases hn : iv.length - b < 67
  · rw [(ho.short hn).1, (hshort' hn).1]
  by_cases hv : PauseIsNew s.cfgTol iv b ∧ CountAndTerminatorOk s.cfgTol iv b
  · obtain ⟨hp, hct⟩ := hv
    by_cases hpass : ChecksPass s.cfgExt w
    · rw [(ho.committed hp hct hpass).1, (hcommitted' hp hct hpass).1]
    · rw [(ho.mismatch hp hct hpass).1, (hmismatch' hp hct hpass).1]
  · rw [(ho.malformed (Nat.not_lt.mp hn) hv).1, (hmalformed' (Nat.not_lt.mp hn) hv).1]

/-- Settles O33: the second DECODE meets the same list under the same configuration. -/
theorem newDecodeIsIdempotent : Obligations.NewDecodeIsIdempotent := by
  intro s t iv b hs hb hp ht
  have heffect : DecodeEffect s t := exec_decodeForm_next rfl ht
  obtain ⟨t', ht', ho⟩ := execDecode_newFrameOutcome hs hb hp
  obtain rfl : t = t' := Host.Outcome.next.inj (ht.symm.trans ht')
  have htol : t.cfgTol = s.cfgTol := heffect.sameConfig.2
  obtain ⟨u, hu, ho'⟩ := execDecode_newFrameOutcome (heffect.ready hs) (htol ▸ hb) (htol ▸ hp)
  rw [htol] at ho'
  have hres : u.res = t.res := ho.res_eq ho' heffect.sameConfig
  refine ⟨u, hu, hres, fun hnew => ?_⟩
  simp only [State.res, Prod.mk.injEq] at hres
  obtain ⟨-, hvalue, hstatus⟩ := hres
  obtain ⟨htv, htc⟩ := heffect.okNew hnew
  obtain ⟨huv, huc⟩ := (exec_decodeForm_next rfl hu).okNew (hstatus.trans hnew)
  exact ⟨htv, htc, huv, huc.trans hvalue⟩

end Sys2Proof.Machine
end

section
/-! The micro-steps realise DECODE (46_decoder_fsm.md R153 to R161, R229): from IDLE's own step on, stage by stage, each
stage with the number of micro-steps it takes. -/

namespace Sys2Proof.Machine

/-! ## Runs without a host move -/

/-- `n` steps lead from `s` to `t`. -/
def Reaches (n : Nat) (s t : State) : Prop :=
  ∀ m : Nat, Host.Core.run core (m + n) s = Host.Core.run core m t

section

variable {s t u : State} {iv : List Micros} {n m : Nat}

theorem Reaches.refl (s : State) : Reaches 0 s s := fun _ => rfl

theorem Reaches.trans (h : Reaches n s t) (h' : Reaches m t u) : Reaches (n + m) s u := by
  intro k
  rw [Nat.add_comm n m, ← Nat.add_assoc, h, h']

theorem reaches_of_step (h : step s = .next t) : Reaches 1 s t := by
  intro k
  have hc : core.step s = .next t := h
  simp only [Host.Core.run, hc]

/-- R153: a block in IDLE without host moves stays as it is. -/
theorem step_idle (hf : s.fsm = .idle) (hh : s.host = []) : step s = .next s :=
  (step_noMove hh).trans (microStep_idle hf)

theorem run_idle (hf : s.fsm = .idle) (hh : s.host = []) (n : Nat) : Host.Core.run core n s = .next s := by
  induction n with
  | zero => rfl
  | succ n ih => rw [reaches_of_step (step_idle hf hh), ih]

/-- A run that reaches IDLE within its bound ends there. -/
theorem Reaches.run_eq (h : Reaches n s t) (hf : t.fsm = .idle) (hh : t.host = []) (hle : n ≤ m) :
    Host.Core.run core m s = .next t := by
  rw [← Nat.sub_add_cancel hle, h, run_idle hf hh]

/-- The busy block takes the micro-step of its `FSM` register. -/
theorem reaches_micro (hh : s.host = []) (ha : ArgumentOk iv s) (hf : s.fsm ≠ .idle)
    (h : microStepOn iv s = .next t) : Reaches 1 s t :=
  reaches_of_step (by rw [step_noMove hh, microStep_ok hf ha, h])

end

/-! ## The block at each stage -/

/-- LOCATE, about to scan element `i`. -/
def locating (i : Nat) (s : State) : State := { s with scanI := i, fsm := .locate }

/-- CLASSIFY, with the burst at `b`. -/
def classifying (b : Nat) (s : State) : State := { s with scanI := b, start := b, fsm := .classify }

/-- VALIDATE, of a New frame at `b`. -/
def validating (b : Nat) (s : State) : State :=
  { s with scanI := b, start := b, mtype := .newMsg, fsm := .validate }

/-- CONVERT after `k` bits, with `p` in PAYLOAD; CHECK after all 32. -/
def converting (b : Nat) (p : Payload) (k : Nat) (s : State) : State :=
  { s with
    scanI := b, start := b, mtype := .newMsg, payload := p, bitK := BitVec.ofNat 6 k
    fsm := if k = 32 then .check else .convert }

/-- COMMIT of the payload `w`. -/
def committing (b : Nat) (w : Payload) (s : State) : State := { newFrameScratch b w s with fsm := .commit }

theorem converting_32 (b : Nat) (w : Payload) (s : State) :
    converting b w 32 s = { newFrameScratch b w s with fsm := .check } := rfl

/-- The end of a DECODE overwrites `FSM`. -/
theorem checkPayload_withFsm (f : Fsm) (s : State) : checkPayload { s with fsm := f } = checkPayload s := rfl

/-! ## From stage to stage -/

section

variable {s : State} {iv : List Micros} {b : Nat} {w : Payload} (ha : ArgumentOk iv s) (hh : s.host = [])
include ha hh

/-- R154: one step for each element before the first in `W_BURST`. -/
theorem reaches_locating (i : Nat) (hi : ∀ j < i, ∃ v, iv[j]? = some v ∧ inBurst s.cfgTol v = false) :
    Reaches i (beginDecode s) (locating i s) := by
  induction i with
  | zero => exact .refl _
  | succ i ih =>
    obtain ⟨v, hv, hout⟩ := hi i (Nat.lt_succ_self i)
    have hskip : microStepOn iv (locating i s) = .next (locating (i + 1) s) :=
      microLocate_skip (s := locating i s) hv hout
    exact (ih fun j hj => hi j (by omega)).trans (reaches_micro hh ha nofun hskip)

theorem reaches_noBurst (hn : ∀ v ∈ iv, inBurst s.cfgTol v = false) :
    Reaches (iv.length + 1) (beginDecode s) (failWith .noLeadingBurst { s with scanI := iv.length }) := by
  have hend : microStepOn iv (locating iv.length s) = .next (failWith .noLeadingBurst { s with scanI := iv.length }) :=
    microLocate_end (s := locating iv.length s) le_rfl
  refine (reaches_locating ha hh iv.length fun j hj => ?_).trans (reaches_micro hh ha nofun hend)
  exact ⟨iv[j], List.getElem?_eq_getElem hj, hn _ (List.getElem_mem hj)⟩

theorem reaches_classifying (hb : FirstBurst s.cfgTol iv b) : Reaches (b + 1) (beginDecode s) (classifying b s) := by
  have hlt := hb.lt_length
  obtain ⟨⟨v, hv, hin⟩, hbefore⟩ := hb
  have hfound : microStepOn iv (locating b s) = .next (classifying b s) :=
    microLocate_found (s := locating b s) hv hin
  refine (reaches_locating ha hh b fun j hj => ?_).trans (reaches_micro hh ha nofun hfound)
  have hjv : iv[j]? = some iv[j] := List.getElem?_eq_getElem (hj.trans hlt)
  exact ⟨_, hjv, hbefore j hj _ hjv⟩

/-- R155: a burst at the last element. -/
theorem reaches_noPause (hp : iv.length = b + 1) :
    Reaches 1 (classifying b s) (failWith .structShort { s with scanI := b, start := b, mtype := .invalid }) := by
  have hnone : iv[b + 1]? = none := List.getElem?_eq_none hp.le
  exact reaches_micro hh ha nofun (by simp only [microStepOn, microClassify, classifying, hnone]; rfl)

theorem reaches_invalid (hp : PauseIsInvalid s.cfgTol iv b) :
    Reaches 1 (classifying b s) (failWith .unclassifiable { s with scanI := b, start := b, mtype := .invalid }) := by
  obtain ⟨p, hp, hc⟩ := hp.classify
  exact reaches_micro hh ha nofun (by simp only [microStepOn, microClassify, classifying, hp, hc]; rfl)

theorem reaches_repeat (hp : PauseIsRepeat s.cfgTol iv b) :
    Reaches 1 (classifying b s) (repeatPath { s with scanI := b, start := b, mtype := .repeatMsg }) := by
  obtain ⟨p, hp, hc⟩ := hp.classify
  exact reaches_micro hh ha nofun (by simp only [microStepOn, microClassify, classifying, hp, hc]; rfl)

theorem reaches_validating (hp : PauseIsNew s.cfgTol iv b) : Reaches 1 (classifying b s) (validating b s) := by
  obtain ⟨p, hp, -, hc⟩ := hp.classify
  exact reaches_micro hh ha nofun (by simp only [microStepOn, microClassify, classifying, hp, hc]; rfl)

/-- R157: the structural validator's failure ends the DECODE. -/
theorem reaches_validNew_fail {e : Status} (hv : validNew s.cfgTol iv b = some (.fail e)) :
    Reaches 1 (validating b s) (failWith e { s with scanI := b, start := b, mtype := .newMsg }) :=
  reaches_micro hh ha nofun (by simp only [microStepOn, microValidate, validating, hv]; rfl)

theorem reaches_converting_zero (hv : validNew s.cfgTol iv b = some .pass) :
    Reaches 1 (validating b s) (converting b s.payload 0 s) :=
  reaches_micro hh ha nofun (by simp only [microStepOn, microValidate, validating, hv]; rfl)

/-- R158: one bit of PAYLOAD. -/
theorem reaches_converting_succ (hw : PayloadAt s.cfgTol iv b w) {k : Nat} (hk : k < 32) (p : Payload) :
    Reaches 1 (converting b p k s) (converting b (setBit p k (w.getLsbD k)) (k + 1) s) := by
  obtain ⟨v, hv, hbit⟩ := hw k hk
  have hbit : w.getLsbD k = sampleBit s.cfgTol v := hbit
  have hk6 : (converting b p k s).bitK.toNat = k := by simp [converting]; omega
  have hfsm : (converting b p k s).fsm = .convert := if_neg hk.ne
  have hmicro := microConvert_bit (s := converting b p k s) (iv := iv) (hk6.symm ▸ hk) (hk6.symm ▸ hv)
  refine reaches_micro hh ha (by simp [hfsm]) ?_
  simp only [microStepOn, hfsm, hmicro, hk6, hbit]
  simp [converting, BitVec.ofNat_add]

/-- R158: after `k` rounds PAYLOAD holds the first `k` bits, whatever it held before. -/
theorem reaches_converting (hw : PayloadAt s.cfgTol iv b w) (p₀ : Payload) {k : Nat} (hk : k ≤ 32) :
    ∃ p, Reaches k (converting b p₀ 0 s) (converting b p k s) ∧ ∀ j < k, p.getLsbD j = w.getLsbD j := by
  induction k with
  | zero => exact ⟨p₀, .refl _, nofun⟩
  | succ k ih =>
    obtain ⟨p, hreach, hbits⟩ := ih (by omega)
    refine ⟨_, hreach.trans (reaches_converting_succ ha hh hw hk p), fun j hj => ?_⟩
    rw [setBit_getLsbD hk]
    split_ifs with e
    · rw [e]
    · exact hbits j (by omega)

theorem reaches_converting_32 (hw : PayloadAt s.cfgTol iv b w) (p₀ : Payload) :
    Reaches 32 (converting b p₀ 0 s) (converting b w 32 s) := by
  obtain ⟨p, hreach, hbits⟩ := reaches_converting ha hh hw p₀ le_rfl
  obtain rfl : p = w := BitVec.eq_of_getLsbD_eq fun j hj => hbits j hj
  exact hreach

/-- R159, R160: CHECK, and COMMIT where it passes; IDLE holds for one step where it does not. -/
theorem reaches_checkPayload (b : Nat) (w : Payload) :
    Reaches 2 (converting b w 32 s) (checkPayload (newFrameScratch b w s)) := by
  rw [← checkPayload_withFsm .check, ← converting_32]
  obtain ⟨hc, e⟩ | ⟨hc, e⟩ := microCheck_cases (converting b w 32 s) <;>
    have hcheck := reaches_micro (s := converting b w 32 s) hh ha nofun e
  · rw [checkPayload_pass hc]
    exact hcheck.trans (reaches_micro (s := committing b w s) hh ha nofun rfl)
  · rw [checkPayload_mismatch hc]
    exact hcheck.trans (reaches_of_step (step_idle (s := failWith _ _) rfl hh))

/-- R157 to R160: a structurally valid New frame. -/
theorem reaches_complete (hv : validNew s.cfgTol iv b = some .pass) (hw : PayloadAt s.cfgTol iv b w) :
    Reaches 35 (validating b s) (checkPayload (newFrameScratch b w s)) :=
  ((reaches_converting_zero ha hh hv).trans (reaches_converting_32 ha hh hw s.payload)).trans
    (reaches_checkPayload ha hh b w)

end

/-! ## The whole DECODE -/

variable {s : State} {iv : List Micros}

theorem DecodeReady.argumentOk (h : DecodeReady iv s) : ArgumentOk iv s :=
  (decodeArgument_idle h.idle).symm.trans h.argument

/-- R161, R229: kind by kind of the list, the micro-steps reach the state that DECODE answers, within the bound. -/
theorem reaches_execDecode (hs : DecodeReady iv s) (hh : s.host = []) :
    ∃ n t, n ≤ iv.length + 36 ∧ Reaches n (beginDecode s) t ∧ execDecode s = .next t := by
  have ha := hs.argumentOk
  obtain ⟨hn, e⟩ | ⟨b, hb, hkind⟩ := execDecode_cases hs
  · exact ⟨_, _, by omega, reaches_noBurst ha hh hn, e⟩
  have hlt := hb.lt_length
  have hburst := reaches_classifying ha hh hb
  obtain ⟨hp, e⟩ | ⟨hp, e⟩ | ⟨hp, e⟩ | ⟨hp, hn, e⟩ | ⟨hp, hn, ht, e⟩ | ⟨hp, ht, w, hw, e⟩ := hkind
  · exact ⟨_, _, by omega, hburst.trans (reaches_noPause ha hh hp), e⟩
  · exact ⟨_, _, by omega, hburst.trans (reaches_invalid ha hh hp), e⟩
  · exact ⟨_, _, by omega, hburst.trans (reaches_repeat ha hh hp), e⟩
  all_goals have hnew := hburst.trans (reaches_validating ha hh hp)
  · exact ⟨_, _, by omega, hnew.trans (reaches_validNew_fail ha hh (validNew_short hn)), e⟩
  · exact ⟨_, _, by omega, hnew.trans (reaches_validNew_fail ha hh ((validNew_of_new hp hn).2 ht)), e⟩
  · exact ⟨_, _, by omega, hnew.trans (reaches_complete ha hh ((validNew_of_new hp ht.1).1 ht) hw), e⟩

/-- A list outside the contract is refused by the first micro-step, with DECODE's reason (R212). -/
theorem run_beginDecode_refused {r : Refusal} (hb : bufferArgument s = .error r) (hh : s.host = []) (n : Nat) :
    Host.Core.run core (n + 1) (beginDecode s) = .refused r := by
  have harg : bufferArgument (beginDecode s) = .error r := hb
  have hmicro : microStep (beginDecode s) = .refused r := by simp [microStep, harg]
  have hstep : core.step (beginDecode s) = .refused r := (step_noMove (s := beginDecode s) hh).trans hmicro
  simp only [Host.Core.run, hstep]

/-- Settles O38: a refused argument is refused by the first micro-step, and an accepted list's micro-steps reach what
DECODE answers. -/
theorem microStepsRealiseDecode : Obligations.MicroStepsRealiseDecode := by
  intro s hf hh
  cases ha : decodeArgument s with
  | error r =>
    rw [run_beginDecode_refused (decodeArgument_idle hf ▸ ha) hh]
    exact ((exec_decodeForm (iv := []) (i := .decode) rfl).1 r ha).symm
  | ok iv =>
    have hs := decodeArgument_ok.mp ha
    obtain ⟨n, t, hn, hreach, e⟩ := reaches_execDecode hs hh
    obtain ⟨⟨-, -, -, hhost, -⟩, hidle, -⟩ : DecodeEffect s t := exec_decodeForm_next (i := .decode) rfl e
    rw [hs.argumentOk.length] at hn
    exact (hreach.run_eq hidle (hhost.trans hh) hn).trans e.symm

/-- Settles O39: a step without a move is the micro-step of IDLE, which holds. -/
theorem idleHoldsWithoutCommand : Obligations.IdleHoldsWithoutCommand :=
  ⟨fun _ => step_idle, fun _ => ⟨rfl, rfl⟩⟩

end Sys2Proof.Machine
end

section
/-! The errors and the breaches of the contract (60_exceptions.md R200 to R203, R212): which status a DECODE reports,
what an error leaves alone, and under which name a breach is refused. -/

namespace Sys2Proof.Machine

variable {s t : State} {iv : List Micros} {e : Status}

/-! ## The outcome table -/

/-- R201's condition for each status, with the earlier stages of R203 passed: what must hold of the list and the block
for a DECODE to report it. -/
def OutcomeCondition (s : State) (iv : List Micros) : Status → Prop
  | .none => False
  | .noLeadingBurst => ∀ v ∈ iv, inBurst s.cfgTol v = false
  | .structShort => ∃ b, FirstBurst s.cfgTol iv b ∧
      (iv.length ≤ b + 1 ∨ (PauseIsNew s.cfgTol iv b ∧ iv.length - b < 67))
  | .unclassifiable => ∃ b, FirstBurst s.cfgTol iv b ∧ PauseIsInvalid s.cfgTol iv b
  | .okRepeat => ∃ b, FirstBurst s.cfgTol iv b ∧ PauseIsRepeat s.cfgTol iv b ∧ s.lastValid = true
  | .repeatWithoutPrior => ∃ b, FirstBurst s.cfgTol iv b ∧ PauseIsRepeat s.cfgTol iv b ∧ s.lastValid = false
  | .malformed => ∃ b, FirstBurst s.cfgTol iv b ∧ PauseIsNew s.cfgTol iv b ∧ 67 ≤ iv.length - b ∧
      ¬ CountAndTerminatorOk s.cfgTol iv b
  | .redundancyMismatch => ∃ b w, FirstBurst s.cfgTol iv b ∧ PauseIsNew s.cfgTol iv b ∧
      CountAndTerminatorOk s.cfgTol iv b ∧ PayloadAt s.cfgTol iv b w ∧ ¬ ChecksPass s.cfgExt w
  | .okNew => ∃ b w, FirstBurst s.cfgTol iv b ∧ PauseIsNew s.cfgTol iv b ∧
      CountAndTerminatorOk s.cfgTol iv b ∧ PayloadAt s.cfgTol iv b w ∧ ChecksPass s.cfgExt w

/-- Every list meets the condition of some status. -/
theorem exists_outcomeCondition (s : State) (iv : List Micros) : ∃ e, OutcomeCondition s iv e := by
  obtain hn | ⟨b, hb, hp | hp | hp | ⟨hp, hn | ⟨hn, ht⟩ | ⟨ht, w, hw⟩⟩⟩ := list_cases s.cfgTol iv
  · exact ⟨.noLeadingBurst, hn⟩
  · exact ⟨.structShort, b, hb, .inl hp.le⟩
  · exact ⟨.unclassifiable, b, hb, hp⟩
  · cases hv : s.lastValid
    · exact ⟨.repeatWithoutPrior, b, hb, hp, hv⟩
    · exact ⟨.okRepeat, b, hb, hp, hv⟩
  · exact ⟨.structShort, b, hb, .inr ⟨hp, hn⟩⟩
  · exact ⟨.malformed, b, hb, hp, hn, ht⟩
  · by_cases hc : ChecksPass s.cfgExt w
    · exact ⟨.okNew, b, w, hb, hp, ht, hw, hc⟩
    · exact ⟨.redundancyMismatch, b, w, hb, hp, ht, hw, hc⟩

theorem repeatPath_resStatus (s : State) :
    (repeatPath s).resStatus = if s.lastValid = true then .okRepeat else .repeatWithoutPrior := by
  obtain ⟨hv, e⟩ | ⟨hv, e⟩ := repeatPath_cases s <;> rw [e, hv] <;> rfl

/-- A DECODE whose list meets the condition of a status reports that status. -/
theorem execDecode_of_outcomeCondition (h : DecodeReady iv s) (hc : OutcomeCondition s iv e) :
    ∃ t, execDecode s = .next t ∧ t.resStatus = e := by
  cases e with
  | none => exact hc.elim
  | noLeadingBurst => exact ⟨_, execDecode_noBurst h hc, rfl⟩
  | structShort =>
    obtain ⟨b, hb, hlen | ⟨hp, hn⟩⟩ := hc
    · exact ⟨_, execDecode_noPause h hb (le_antisymm hlen hb.lt_length), rfl⟩
    · exact ⟨_, execDecode_short h hb hp hn, rfl⟩
  | unclassifiable =>
    obtain ⟨b, hb, hp⟩ := hc
    exact ⟨_, execDecode_invalid h hb hp, rfl⟩
  | okRepeat =>
    obtain ⟨b, hb, hp, hv⟩ := hc
    exact ⟨_, execDecode_repeat h hb hp, by simp [repeatPath_resStatus, hv]⟩
  | repeatWithoutPrior =>
    obtain ⟨b, hb, hp, hv⟩ := hc
    exact ⟨_, execDecode_repeat h hb hp, by simp [repeatPath_resStatus, hv]⟩
  | malformed =>
    obtain ⟨b, hb, hp, hn, ht⟩ := hc
    exact ⟨_, execDecode_malformed h hb hp hn ht, rfl⟩
  | redundancyMismatch =>
    obtain ⟨b, w, hb, hp, ht, hw, hbad⟩ := hc
    exact ⟨_, execDecode_new h hb hp ht hw, congrArg State.resStatus (checkPayload_mismatch hbad)⟩
  | okNew =>
    obtain ⟨b, w, hb, hp, ht, hw, hpass⟩ := hc
    exact ⟨_, execDecode_new h hb hp ht hw, congrArg State.resStatus (checkPayload_pass hpass)⟩

/-- R203: the status a DECODE reports is the one whose condition holds. That no second condition holds needs no proof of
its own: DECODE would report that status too. -/
theorem resStatus_eq_iff (h : DecodeReady iv s) (ht : execDecode s = .next t) :
    t.resStatus = e ↔ OutcomeCondition s iv e := by
  have reported {e : Status} (hc : OutcomeCondition s iv e) : t.resStatus = e := by
    obtain ⟨t', ht', he⟩ := execDecode_of_outcomeCondition h hc
    obtain rfl : t = t' := Host.Outcome.next.inj (ht.symm.trans ht')
    exact he
  refine ⟨?_, reported⟩
  rintro rfl
  obtain ⟨e, he⟩ := exists_outcomeCondition s iv
  rwa [reported he]

theorem status_valid_eq_false (hnew : e ≠ .okNew) (hrep : e ≠ .okRepeat) : e.valid = false := by
  cases e with
  | okNew => exact absurd rfl hnew
  | okRepeat => exact absurd rfl hrep
  | _ => rfl

/-- R200: every status but the two OKs comes with `RES_VALID = 0` and `RES_VALUE = 0`. -/
theorem DecodeEffect.error (h : DecodeEffect s t) (hnew : t.resStatus ≠ .okNew) (hrep : t.resStatus ≠ .okRepeat) :
    t.resValid = false ∧ t.resValue = 0#24 := by
  obtain ⟨hvalid, hvalue, -⟩ := h.resultInv
  have hv : t.resValid = false := hvalid.trans (status_valid_eq_false hnew hrep)
  exact ⟨hv, hvalue hv⟩

/-- Settles O27: DECODE reports the status whose condition holds, and `NONE` has no condition. -/
theorem decodeOutcomeTable : Obligations.DecodeOutcomeTable := by
  intro s iv h
  obtain ⟨t, ht, heffect⟩ := execDecode_ready h
  have hstatus (e : Status) : t.resStatus = e ↔ OutcomeCondition s iv e := resStatus_eq_iff h ht
  exact ⟨t, ht, hstatus .noLeadingBurst, hstatus .structShort, hstatus .unclassifiable, hstatus .okRepeat,
    hstatus .repeatWithoutPrior, hstatus .malformed, hstatus .redundancyMismatch, hstatus .okNew,
    (hstatus .none).mp, heffect.error⟩

/-! ## What an error leaves alone -/

/-- Settles O31: a completed DECODE form with `RES_VALID = 0` has not ended OK_NEW, and nothing else writes `LAST_*`. -/
theorem errorsKeepLastCodeAndConfiguration : Obligations.ErrorsKeepLastCodeAndConfiguration := by
  intro i s t hi h hv
  have ht := exec_decodeForm_next hi h
  have hnew : t.resStatus ≠ .okNew := by
    intro hs
    obtain ⟨hvalid, -⟩ := ht.resultInv
    rw [hv, hs] at hvalid
    exact Bool.false_ne_true hvalid
  exact ⟨ht.sameLast hnew, ht.sameConfig, ht.1⟩

/-! ## The breaches of the contract -/

theorem bufferArgument_notReady (hr : s.ready = false) : bufferArgument s = .error .decodeBeforeReset := if_pos hr

theorem bufferArgument_tooLong (hr : s.ready = true) (hl : s.maxLen < s.buffer.length) :
    bufferArgument s = .error .listTooLong := by
  simp [bufferArgument, hr, hl]

theorem bufferArgument_outOfDomain (hr : s.ready = true) (hl : s.buffer.length ≤ s.maxLen)
    (hd : durations s.buffer = none) : bufferArgument s = .error .intervalOutOfDomain := by
  simp [bufferArgument, hr, Nat.not_lt.mpr hl, hd]

/-- In IDLE a DECODE form is refused for the reason that stands against its list. -/
theorem exec_decodeForm_refused {i : Instr} {r : Refusal} (hi : isDecodeForm i = true) (hf : s.fsm = .idle)
    (hb : bufferArgument s = .error r) : exec i s = .refused r :=
  (exec_decodeForm (iv := []) hi).1 r ((decodeArgument_idle hf).trans hb)

/-- Settles O41, item by item of R212, from what stands against the list. -/
theorem contractBreachesAreRefused : Obligations.ContractBreachesAreRefused := by
  refine fun i s hi => ⟨fun hf hr hl => ?tooLong, fun hf hr hl hx => ?outOfDomain, fun hf => exec_busy hf i,
    fun hf hr => ?notReady⟩
  case tooLong => exact exec_decodeForm_refused hi hf (bufferArgument_tooLong hr hl)
  case outOfDomain =>
    obtain ⟨x, hmem, hx⟩ := hx
    have hd : durations s.buffer = none := durations_eq_none.mpr ⟨x, hmem, duration_eq_none.mpr hx⟩
    exact exec_decodeForm_refused hi hf (bufferArgument_outOfDomain hr hl hd)
  case notReady => exact exec_decodeForm_refused hi hf (bufferArgument_notReady hr)

end Sys2Proof.Machine
end

section
/-! Noninterference of the registers a reset leaves unspecified (10_state.md R29; 46_decoder_fsm.md R150; R221): every
operation on two blocks that agree on the specified registers leaves them in agreement. `SameSpecified` does not mention
the scratch registers, so that a proof of it stands as it is for the same blocks with other values there. -/

namespace Sys2Proof.Machine

variable {s t : State} {iv : List Micros}

namespace SameSpecified

variable (h : SameSpecified s t)
include h

theorem idle : s.fsm = .idle ∧ t.fsm = .idle := ⟨h.1, h.2.1⟩

theorem sameConfig : SameConfig t s := by
  obtain ⟨-, -, hext, htol, -⟩ := h
  exact ⟨hext, htol⟩

theorem host : s.host = t.host := by
  obtain ⟨-, -, -, -, -, -, -, -, -, -, -, hhost, -⟩ := h
  exact hhost

theorem last : s.lastValid = t.lastValid ∧ (s.lastValid = true → s.lastCode = t.lastCode) := by
  obtain ⟨-, -, -, -, hvalid, hcode, -⟩ := h
  exact ⟨hvalid, hcode⟩

/-- Both blocks read a command as the same instruction (R60, R72). -/
theorem decode (c : Command) :
    Sys2Proof.decode s.cfgExt s.cfgTol c s.buffer = Sys2Proof.decode t.cfgExt t.cfgTol c t.buffer := by
  obtain ⟨-, -, hext, htol, -, -, -, -, -, hbuffer, -⟩ := h
  rw [hext, htol, hbuffer]

theorem bufferArgument : Machine.bufferArgument s = Machine.bufferArgument t := by
  obtain ⟨-, -, -, -, -, -, -, -, -, hbuffer, hmax, -, hready⟩ := h
  exact bufferArgument_congr hready hmax hbuffer

/-! ## Writes -/

theorem finish (v : Bool) (x : Code) (e : Status) :
    SameSpecified (Machine.finish v x e s) (Machine.finish v x e t) := by
  obtain ⟨-, -, hext, htol, hvalid, hcode, -, -, -, hrest⟩ := h
  exact ⟨rfl, rfl, hext, htol, hvalid, hcode, rfl, rfl, rfl, hrest⟩

theorem failWith (e : Status) : SameSpecified (Machine.failWith e s) (Machine.failWith e t) := h.finish false 0#24 e

theorem withLast (x : Code) :
    SameSpecified { s with lastValid := true, lastCode := x } { t with lastValid := true, lastCode := x } := by
  obtain ⟨hidle, hidle', hext, htol, -, -, hrest⟩ := h
  exact ⟨hidle, hidle', hext, htol, rfl, fun _ => rfl, hrest⟩

theorem withHost (rest : List HostMove) : SameSpecified { s with host := rest } { t with host := rest } := by
  obtain ⟨hidle, hidle', hext, htol, hvalid, hcode, hv, hx, he, hbuffer, hmax, -, hready⟩ := h
  exact ⟨hidle, hidle', hext, htol, hvalid, hcode, hv, hx, he, hbuffer, hmax, rfl, hready⟩

theorem withBuffer (m : Memory) : SameSpecified { s with buffer := m } { t with buffer := m } := by
  obtain ⟨hidle, hidle', hext, htol, hvalid, hcode, hv, hx, he, -, hrest⟩ := h
  exact ⟨hidle, hidle', hext, htol, hvalid, hcode, hv, hx, he, rfl, hrest⟩

/-- The two blocks may draw different free values: `LAST_CODE` is not valid after INIT, and the rest are scratch. -/
theorem initialise (ext : Bool) (tol : Micros) :
    SameSpecified (Machine.initialise ext tol s) (Machine.initialise ext tol t) := by
  obtain ⟨-, -, -, -, -, -, -, -, -, hbuffer, hmax, hhost, -⟩ := h
  exact ⟨rfl, rfl, rfl, rfl, rfl, fun hv => absurd hv Bool.false_ne_true, rfl, rfl, rfl, hbuffer, hmax, hhost, rfl⟩

/-! ## The ends of a DECODE -/

/-- R156: the Repeat path shows `LAST_CODE` only while it is valid. -/
theorem repeatPath : SameSpecified (Machine.repeatPath s) (Machine.repeatPath t) := by
  obtain ⟨hvalid, hcode⟩ := h.last
  cases hv : t.lastValid <;> rw [hv] at hvalid <;> simp only [Machine.repeatPath, hvalid, hv]
  · exact h.failWith _
  · rw [hcode hvalid]
    exact h.finish _ _ _

/-- R159, R160: CHECK and COMMIT read the configuration and the payload alone. -/
theorem checkPayload (hp : s.payload = t.payload) :
    SameSpecified (Machine.checkPayload s) (Machine.checkPayload t) := by
  have hext : s.cfgExt = t.cfgExt := h.sameConfig.1
  by_cases hc : ChecksPass t.cfgExt t.payload
  · have hpack : pack s.cfgExt s.payload = pack t.cfgExt t.payload := by rw [hext, hp]
    rw [checkPayload_pass hc, checkPayload_pass (hext ▸ hp ▸ hc), commitPayload, commitPayload, hpack]
    exact (h.withLast _).finish _ _ _
  · rw [checkPayload_mismatch hc, checkPayload_mismatch (hext ▸ hp ▸ hc)]
    exact h.failWith _

theorem newPath (b : Nat) (w : Payload) :
    SameOutcome SameSpecified (Machine.newPath iv b (some w) s) (Machine.newPath iv b (some w) t) := by
  have htol : s.cfgTol = t.cfgTol := h.sameConfig.2
  obtain ⟨hn, e⟩ | ⟨hn, hbad, e⟩ | ⟨hp, hct, e⟩ := newPath_cases iv b w t <;> rw [e]
  · rw [newPath_short hn]
    exact .ofNext (h.failWith _)
  · rw [newPath_malformed hn (htol ▸ hbad)]
    exact .ofNext (h.failWith _)
  · rw [newPath_complete (htol ▸ hp) (htol ▸ hct)]
    exact .ofNext (checkPayload (s := newFrameScratch b w s) (t := newFrameScratch b w t) h rfl)

/-! ## The instructions -/

theorem ready (hs : DecodeReady iv s) : DecodeReady iv t := by
  obtain ⟨hidle, hidle'⟩ := h.idle
  apply decodeArgument_ok.mp
  rw [decodeArgument_idle hidle', ← h.bufferArgument, ← decodeArgument_idle hidle, hs.argument]

/-- DECODE, kind by kind of the list, which is the same in both blocks. -/
theorem execDecode (hs : DecodeReady iv s) :
    SameOutcome SameSpecified (Machine.execDecode s) (Machine.execDecode t) := by
  have ht := h.ready hs
  have htol : s.cfgTol = t.cfgTol := h.sameConfig.2
  obtain hn | ⟨b, hb, hp | hp | hp | ⟨hp, -⟩⟩ := list_cases t.cfgTol iv
  · rw [execDecode_noBurst ht hn, execDecode_noBurst hs (htol ▸ hn)]
    exact .ofNext (h.failWith _)
  · rw [execDecode_noPause ht hb hp, execDecode_noPause hs (htol ▸ hb) hp]
    exact .ofNext (h.failWith _)
  · rw [execDecode_invalid ht hb hp, execDecode_invalid hs (htol ▸ hb) (htol ▸ hp)]
    exact .ofNext (h.failWith _)
  · rw [execDecode_repeat ht hb hp, execDecode_repeat hs (htol ▸ hb) (htol ▸ hp)]
    exact .ofNext (repeatPath h)
  · rw [execDecode_newPath ht hb hp, execDecode_newPath hs (htol ▸ hb) (htol ▸ hp), ← newPath_framePayload,
      ← newPath_framePayload, htol]
    exact h.newPath b _

theorem exec (i : Instr) : SameOutcome SameSpecified (Machine.exec i s) (Machine.exec i t) := by
  obtain ⟨hidle, hidle'⟩ := h.idle
  by_cases hi : isDecodeForm i = true
  · cases ha : Machine.bufferArgument s with
    | error r =>
      rw [exec_decodeForm_refused hi hidle ha, exec_decodeForm_refused hi hidle' (h.bufferArgument ▸ ha)]
      rfl
    | ok iv =>
      have hs : DecodeReady iv s := decodeArgument_ok.mp ((decodeArgument_idle hidle).trans ha)
      have ht := h.ready hs
      cases i with
      | init ext tol => exact absurd hi Bool.false_ne_true
      | decode => exact h.execDecode hs
      | frameNewStd start a b c k =>
        rw [exec_frameNewStd hs, exec_frameNewStd ht]
        exact h.newPath start _
      | frameNewExt start e c k =>
        rw [exec_frameNewExt hs, exec_frameNewExt ht]
        exact h.newPath start _
      | frameRepeat start =>
        rw [exec_frameRepeat hs, exec_frameRepeat ht]
        exact .ofNext (repeatPath h)
  · cases i with
    | init ext tol =>
      simp only [Machine.exec, execInit, hidle, hidle', if_true]
      exact .ofNext (h.initialise ext tol)
    | _ => exact absurd rfl hi

end SameSpecified

/-- Settles O46, by the host's next move, which is the same one for both blocks. -/
theorem unspecifiedRegistersAreNeverObserved : Obligations.UnspecifiedRegistersAreNeverObserved := by
  intro s t h
  obtain ⟨hidle, hidle'⟩ := h.idle
  have hhost := h.host
  cases hh : t.host with
  | nil =>
    rw [step_idle hidle (hhost.trans hh), step_idle hidle' hh]
    exact .ofNext h
  | cons m rest =>
    have hrest := h.withHost rest
    cases m with
    | powerOnReset =>
      rw [step_powerOnReset (hhost.trans hh), step_powerOnReset hh]
      exact .ofNext (hrest.initialise _ _)
    | fillBuffer iv =>
      rw [step_fillBuffer (hhost.trans hh), step_fillBuffer hh, fillBuffer_idle iv hrest.idle.1,
        fillBuffer_idle iv hrest.idle.2]
      exact .ofNext (hrest.withBuffer iv)
    | command c =>
      rw [step_command (hhost.trans hh), step_command hh, h.decode c]
      exact hrest.exec _

end Sys2Proof.Machine
end

section
/-! What a power-on reset and an INIT leave behind (46_decoder_fsm.md R150; R220, R222): the specified registers, the
invariant, and a block that is ready for a DECODE. -/

namespace Sys2Proof.Machine

variable {s t : State} {i : Instr}

/-- Settles O1: in `State.reset` by its definition, and elsewhere from the writes of `initialise`. -/
theorem powerOnResetIsInitWithDefaults : Obligations.PowerOnResetIsInitWithDefaults := by
  refine ⟨⟨rfl, rfl, rfl, rfl, rfl⟩, fun s rest hh => ?powerOnReset, fun ext tol s hf => ?init⟩
  case powerOnReset => exact ⟨_, step_powerOnReset hh, rfl, rfl, rfl, rfl, rfl⟩
  case init => exact ⟨initialise ext tol s, if_pos hf, rfl, rfl, rfl, rfl, rfl⟩

/-- Settles O43: neither `RES_VALID` nor `LAST_VALID` is set in `State.reset`, and the block is idle. -/
theorem resetMeetsInvariant : Obligations.ResetMeetsInvariant := by
  have hcap : State.reset.CapacityInv := by
    unfold State.CapacityInv
    decide
  exact ⟨⟨rfl, fun _ => rfl, fun h => absurd h Bool.false_ne_true⟩, fun h => absurd h Bool.false_ne_true,
    busyInv_of_idle rfl, hcap⟩

/-! ## No DECODE is refused for want of a reset (R222, R212 item 4) -/

/-- An instruction that completes leaves the block past its reset: INIT sets the bit, and a DECODE needs it. -/
theorem exec_next_ready (h : exec i s = .next t) : t.ready = true := by
  by_cases hi : isDecodeForm i = true
  · obtain ⟨r, -, e⟩ | ⟨iv, t', hs, e, ht⟩ := exec_decodeForm_cases hi s
    · simp [e] at h
    · obtain rfl : t' = t := Host.Outcome.next.inj (e.symm.trans h)
      obtain ⟨-, hready, -⟩ := ht.ready hs
      exact hready
  · cases i with
    | init ext tol => rw [execInit_next h]; rfl
    | _ => exact absurd rfl hi

theorem bufferArgument_ne_notReady (hr : s.ready = true) : bufferArgument s ≠ .error .decodeBeforeReset := by
  unfold bufferArgument
  rw [if_neg (by simp [hr])]
  split
  · simp
  · split <;> simp

theorem decodeArgument_ne_notReady (hr : s.ready = true) : decodeArgument s ≠ .error .decodeBeforeReset := by
  unfold decodeArgument
  split
  · exact bufferArgument_ne_notReady hr
  · simp

/-- Past its reset a block refuses no instruction for want of one. -/
theorem exec_ne_notReady (hr : s.ready = true) : exec i s ≠ .refused .decodeBeforeReset := by
  intro h
  by_cases hi : isDecodeForm i = true
  · obtain ⟨r, ha, e⟩ | ⟨iv, t, -, e, -⟩ := exec_decodeForm_cases hi s
    · obtain rfl : r = .decodeBeforeReset := Host.Outcome.refused.inj (e.symm.trans h)
      exact decodeArgument_ne_notReady hr ha
    · simp [e] at h
  · cases i with
    | init ext tol => obtain ⟨-, e⟩ | ⟨-, e⟩ := execInit_cases ext tol s <;> simp [e] at h
    | _ => exact absurd rfl hi

/-- Settles O3: `initialise` sets the reset bit and keeps the buffer, and a completed instruction leaves the bit set. -/
theorem resetEnablesDecode : Obligations.ResetEnablesDecode := by
  refine ⟨fun s rest hh => ?powerOnReset, fun ext tol s hf => ?init, fun i j s t h => ?later⟩
  case powerOnReset => exact ⟨_, step_powerOnReset hh, rfl, rfl, rfl, fun _ => rfl⟩
  case init => exact ⟨initialise ext tol s, if_pos hf, rfl, rfl, fun _ => rfl⟩
  case later => exact exec_ne_notReady (exec_next_ready h)

end Sys2Proof.Machine
end

section
/-! A nominal New frame cut in two by the collector (R225): the first part keeps the burst and the pause and is short,
and no interval of the second is in `W_BURST`. -/

namespace Sys2Proof

variable {tol v : Micros} {iv : List Micros} {b n : Nat} {p : Payload}

theorem FirstBurst.take (h : FirstBurst tol iv b) (hn : b < n) : FirstBurst tol (iv.take n) b :=
  h.of_agree_upTo fun _ hi => (List.getElem?_take_of_lt (hi.trans_lt hn)).symm

theorem PauseIsNew.take (h : PauseIsNew tol iv b) (hn : b + 1 < n) : PauseIsNew tol (iv.take n) b := by
  rwa [PauseIsNew, List.getElem?_take_of_lt hn]

/-- After the burst, the pause is the longest interval of a nominal frame (R71). -/
theorem le_of_mem_tail_nominalFrame (h : v ∈ (nominalFrame p).tail) : v ≤ 4500 := by
  simp only [nominalFrame, List.tail_cons, List.mem_cons, List.mem_append, List.mem_flatMap, nominalPair,
    List.not_mem_nil, or_false, params_tPauseNew, params_tShort, Config.tOneNominal] at h
  obtain rfl | ⟨k, -, rfl | rfl⟩ | rfl := h
  · exact le_rfl
  · norm_num
  · split_ifs <;> norm_num
  · norm_num

/-- At the default tolerance nothing up to the nominal pause is in `W_BURST`. -/
theorem inBurst_default_of_le (h : v ≤ 4500) : inBurst (5 / 16) v = false := by
  rw [← Bool.not_eq_true, inBurst_default]
  rintro ⟨hlo, -⟩
  linarith

theorem noBurst_drop_nominalFrame (hn : 1 ≤ n) : ∀ v ∈ (nominalFrame p).drop n, inBurst (5 / 16) v = false := by
  intro v hv
  obtain ⟨m, rfl⟩ := Nat.exists_eq_add_of_le' hn
  rw [← List.drop_tail] at hv
  exact inBurst_default_of_le (le_of_mem_tail_nominalFrame (List.mem_of_mem_drop hv))

end Sys2Proof

namespace Sys2Proof.Machine

variable {s : State} {p : Payload} {n : Nat}

/-- Without a pause the first part is too short to classify, and with one it is too short to validate. -/
theorem execDecode_cut_nominalFrame (hs : DecodeReady ((nominalFrame p).take n) s) (h : 0 < s.cfgTol) (h1 : 1 ≤ n)
    (hn : n < 67) : ∃ t, execDecode s = .next t ∧ t.res = (false, 0#24, .structShort) := by
  have hb := (firstBurst_nominalFrame h p).take h1
  have hlen : ((nominalFrame p).take n).length = n := by
    rw [List.length_take, nominalFrame_length]
    omega
  obtain rfl | h2 := h1.eq_or_lt
  · exact ⟨_, execDecode_noPause hs hb hlen, rfl⟩
  · exact ⟨_, execDecode_short hs hb ((pauseIsNew_afterShorts h 0 p).take h2) (by omega), rfl⟩

/-- Settles O20: both parts, from what each still holds of the frame. -/
theorem splitFrameIsNotDecoded : Obligations.SplitFrameIsNotDecoded := by
  intro s s' p n h1 hn htol htol' hs hs'
  obtain ⟨t, ht, hres⟩ := execDecode_cut_nominalFrame hs (by rw [htol]; norm_num) h1 hn
  have hno : ∀ v ∈ (nominalFrame p).drop n, inBurst s'.cfgTol v = false := htol' ▸ noBurst_drop_nominalFrame h1
  exact ⟨t, _, ht, hres, execDecode_noBurst hs' hno, rfl⟩

end Sys2Proof.Machine
end
